-- ==== Sys2Proof/Word.lean ====
section
/-! DEFINITION. The two word types of the block: a byte is 8 bits (R3, decision D19), every integer field is an unsigned
16-bit number (R4, R30). Lengths, offsets and counts are natural numbers (R6). -/

namespace Sys2Proof

/-- A byte (R3 `BYTE_W`, R4). -/
abbrev Byte := BitVec 8

/-- An unsigned 16-bit integer, the only integer field width of a frame (R4, R30). -/
abbrev U16 := BitVec 16

end Sys2Proof
end

