-- ==== Sys2Proof/Config.lean ====
section
/-! DEFINITION. The constants of the block (R3, R15 to R17), the parameters R3 leaves OPEN (R18 KEY, RXBUF_CAP, RXCNT_W),
and the five message-type constants whose values no one gives (R54). -/

namespace Sys2Proof

/-- `HDR`, on the wire AB then CD (R15). -/
def HDR : U16 := 0xCDAB

/-- `TAIL`, on the wire DC then BA (R16). -/
def TAIL : U16 := 0xBADC

/-- `MAX_BODY`: the largest `body_length` (R17). -/
def MAX_BODY : Nat := 1024

/-- `MAX_PAYLOAD`: the largest payload `ENCODE` accepts (R3, R92). -/
def MAX_PAYLOAD : Nat := 1020

/-- `MIN_FRAME`: the buffer length below which the scanner does not look (R17, R113). -/
def MIN_FRAME : Nat := 8

/-- `CRC_POLY` (R17). -/
def CRC_POLY : U16 := 0x1021

/-- `CRC_INIT` (R17). -/
def CRC_INIT : U16 := 0x0000

/-- The size of the largest frame, below which no finite `RXBUF_CAP` may lie (R58, R111). -/
def MAX_FRAME : Nat := 1032

/-- The parameters R3 leaves OPEN and some rule reads. They are arguments of the model: no operation changes them, and a
claim about every state is a claim about every value of them (log 6, 7, 8). -/
structure Config where
  /-- `KEY[0..15]` (R18): 16 bytes, OPEN (decision D3). -/
  key : Vector Byte 16
  /-- `RXBUF_CAP` (R3, R111): `none` is unbounded, the default. -/
  rxbufCap : Option Nat
  /-- `RXCNT_W` (R3, R14): `none` is an unbounded counter, the default. -/
  rxcntW : Option Nat
deriving DecidableEq, Repr

/-- R3 and R111: a finite capacity is not below 1032. -/
def Config.wf (c : Config) : Bool :=
  match c.rxbufCap with
  | none => true
  | some cap => decide (MAX_FRAME ≤ cap)

/-- PRESUMED (log 6): the suggested default of R18, from general knowledge of the radio family, not from the source. -/
def suggestedKey : Vector Byte 16 :=
  #v[0x16, 0x6C, 0x14, 0xE6, 0x2E, 0x91, 0x0D, 0x40, 0x21, 0x35, 0xD5, 0x40, 0x13, 0x03, 0xE9, 0x80]

/-- The defaults R3 names: unbounded buffer, unbounded counter, the suggested key (PRESUMED, log 6). -/
def Config.default : Config := { key := suggestedKey, rxbufCap := none, rxcntW := none }

/-- The protocol vocabulary of R54. -/
inductive MsgType where
  | deviceInfoAnnounce
  | bootloaderVersionAck
  | programPage
  | programPageResponse
  | reboot
deriving DecidableEq, Repr

/-- `MSGTYPE_*` (R3, R54): OPEN, and no rule reads them (log 9). A free value: nothing here can say what it is. -/
opaque msgTypeCode : MsgType → U16

/-- R54: "each a distinct 16-bit constant". A premise for a claim that needs it; the block does not. -/
def MsgTypesDistinct : Prop := ∀ a b, msgTypeCode a = msgTypeCode b → a = b

end Sys2Proof
end

