-- ==== Sys2Proof/Syntax.lean ====
section
/-! DEFINITION. The nine operations of the block with their operands, in the operand order of R60 and R61: one constructor
per row of spec/opcode_table.json. -/

namespace Sys2Proof

/-- One operation with the operands its transaction carries (R60). `SCAN` takes none. -/
inductive Instr where
  /-- 0x01 `CRC16 data` (R70). -/
  | crc16 (data : List Byte)
  /-- 0x02 `CRCCHK data, expected` (R72). -/
  | crcchk (data : List Byte) (expected : U16)
  /-- 0x03 `OBF data` (R80). -/
  | obf (data : List Byte)
  /-- 0x04 `DEOBF data` (R82). -/
  | deobf (data : List Byte)
  /-- 0x05 `ENCODE message_type, payload` (R90). -/
  | encode (messageType : U16) (payload : List Byte)
  /-- 0x06 `DECODE_BODY obf` (R100). -/
  | decodeBody (masked : List Byte)
  /-- 0x07 `RX_PUSH s` (R110). -/
  | rxPush (chunk : List Byte)
  /-- 0x08 `SCAN` (R112). -/
  | scan
  /-- 0x09 `POLL s` (R125). -/
  | poll (chunk : List Byte)
deriving DecidableEq, Repr

end Sys2Proof
end

