-- ==== Sys2Proof/Decode.lean ====
section
/-! DEFINITION. Transactions and their decoding: the 8-bit command codes of R60 (opcode_table.json) with the operands of
each code; unassigned codes are refused (R60). Then the encoder, and the host's view of a table word. -/

namespace Sys2Proof

/-- A value carried by a transaction (R10, R60): a byte sequence or a u16. No byte layout of operands is given or needed
(decisions D1, D2; log 1). -/
inductive Operand where
  | bytes (s : List Byte)
  | u16 (v : U16)
deriving DecidableEq, Repr

/-- "One transaction carries a code and its operands in" (R60), the operands in the order of R61. -/
structure Transaction where
  code : Byte
  operands : List Operand
deriving DecidableEq, Repr

/-- The mnemonics of R60. -/
inductive Opcode where
  | crc16
  | crcchk
  | obf
  | deobf
  | encode
  | decodeBody
  | rxPush
  | scan
  | poll
deriving DecidableEq, Repr

/-- Why a transaction is no instruction. -/
inductive DecodeError where
  /-- The code is not in the table (R60). -/
  | unassignedCode (code : Byte)
  /-- The code is assigned, and the operands are not of its number and types (log 2). -/
  | operandMismatch (code : Byte)
deriving DecidableEq, Repr

/-- A row of the operation table: the code matches where `code AND mask = pattern`. -/
structure OpcodeRow where
  mask : Byte
  pattern : Byte
  opcode : Opcode
deriving DecidableEq, Repr

/-- spec/opcode_table.json, row by row (R60). -/
def opcodeTable : List OpcodeRow :=
  [ ⟨0xFF, 0x01, .crc16⟩,
    ⟨0xFF, 0x02, .crcchk⟩,
    ⟨0xFF, 0x03, .obf⟩,
    ⟨0xFF, 0x04, .deobf⟩,
    ⟨0xFF, 0x05, .encode⟩,
    ⟨0xFF, 0x06, .decodeBody⟩,
    ⟨0xFF, 0x07, .rxPush⟩,
    ⟨0xFF, 0x08, .scan⟩,
    ⟨0xFF, 0x09, .poll⟩ ]

/-- The operation of a command code; `none` where the code is unassigned (R60). -/
def decodeCode (code : Byte) : Option Opcode :=
  (opcodeTable.find? fun row => code &&& row.mask == row.pattern).map OpcodeRow.opcode

/-- The instruction of an operation and its operands (R60, operand order R61); `none` where they do not fit. -/
def decodeOperands (op : Opcode) (operands : List Operand) : Option Instr :=
  match op with
  | .crc16 => match operands with
    | [.bytes data] => some (.crc16 data)
    | _ => none
  | .crcchk => match operands with
    | [.bytes data, .u16 expected] => some (.crcchk data expected)
    | _ => none
  | .obf => match operands with
    | [.bytes data] => some (.obf data)
    | _ => none
  | .deobf => match operands with
    | [.bytes data] => some (.deobf data)
    | _ => none
  | .encode => match operands with
    | [.u16 messageType, .bytes payload] => some (.encode messageType payload)
    | _ => none
  | .decodeBody => match operands with
    | [.bytes masked] => some (.decodeBody masked)
    | _ => none
  | .rxPush => match operands with
    | [.bytes chunk] => some (.rxPush chunk)
    | _ => none
  | .scan => match operands with
    | [] => some .scan
    | _ => none
  | .poll => match operands with
    | [.bytes chunk] => some (.poll chunk)
    | _ => none

/-- Decoding a transaction: total, and every refusal has a name. -/
def decode (t : Transaction) : Except DecodeError Instr :=
  match decodeCode t.code with
  | none => .error (.unassignedCode t.code)
  | some op => match decodeOperands op t.operands with
    | none => .error (.operandMismatch t.code)
    | some i => .ok i

/-- The transaction of an instruction: its code and its operands (R60, R61). -/
def encode : Instr → Transaction
  | .crc16 data => ⟨0x01, [.bytes data]⟩
  | .crcchk data expected => ⟨0x02, [.bytes data, .u16 expected]⟩
  | .obf data => ⟨0x03, [.bytes data]⟩
  | .deobf data => ⟨0x04, [.bytes data]⟩
  | .encode messageType payload => ⟨0x05, [.u16 messageType, .bytes payload]⟩
  | .decodeBody masked => ⟨0x06, [.bytes masked]⟩
  | .rxPush chunk => ⟨0x07, [.bytes chunk]⟩
  | .scan => ⟨0x08, []⟩
  | .poll chunk => ⟨0x09, [.bytes chunk]⟩

/-- The operands of zeros that go with a table word, which gives them no bits: the least the operation admits, u16 zero and
the shortest byte sequence, which for `DECODE_BODY` is four zero bytes (R60, R100; log 3). -/
def zeroOperands : Opcode → List Operand
  | .crc16 => [.bytes []]
  | .crcchk => [.bytes [], .u16 0]
  | .obf => [.bytes []]
  | .deobf => [.bytes []]
  | .encode => [.u16 0, .bytes []]
  | .decodeBody => [.bytes [0, 0, 0, 0]]
  | .rxPush => [.bytes []]
  | .scan => []
  | .poll => [.bytes []]

/-- The transaction of a table word: the 8-bit code with operands of zeros. A word that is no single byte is no code of the
table; it stands for a transaction with the unassigned code 0x00 (log 3). -/
def tableTransaction (nbits w : Nat) : Transaction :=
  if nbits = 8 ∧ w < 256 then
    { code := BitVec.ofNat 8 w,
      operands := ((decodeCode (BitVec.ofNat 8 w)).map zeroOperands).getD [] }
  else { code := 0x00, operands := [] }

/-- The instruction the decoder reads from a table word. -/
def decodeTableWord (nbits w : Nat) : Option Instr :=
  match decode (tableTransaction nbits w) with
  | .ok i => some i
  | .error _ => none

end Sys2Proof
end

