-- ==== Sys2Proof/Machine/State.lean ====
section
/-! DEFINITION. The state of the block (R13, R14, R20), the parameters it is built with (R3, R18), the host's moves and the
results handed back (R60, R171, R172), the ways a step can stop (R140, R142), and the state after reset (R21, R160). -/

namespace Sys2Proof.Machine

/-- "The logical (type, payload) pair carried inside a frame's body" (glossary, R104). -/
structure Message where
  messageType : U16
  payload : List Byte
deriving DecidableEq, Repr

/-- What an operation returns to the host (R60, R172). -/
inductive Result where
  /-- `RX_PUSH` returns nothing. -/
  | nothing
  /-- `CRC16`: a u16. -/
  | checksum (value : U16)
  /-- `CRCCHK`: a boolean. -/
  | verdict (good : Bool)
  /-- `OBF`, `DEOBF`, `ENCODE`: a byte sequence. -/
  | bytes (s : List Byte)
  /-- `DECODE_BODY`: a message. -/
  | decoded (m : Message)
  /-- `SCAN`, `POLL`: `none` or one message (R12). -/
  | scanned (m : Option Message)
deriving DecidableEq, Repr

/-- What the host does to the block (R171): it issues a transaction, or it resets the block between operations (R160). -/
inductive HostMove where
  | issue (t : Transaction)
  | reset
deriving DecidableEq, Repr

/-- The state. `rxbuf` and `rxTotal` are all the state the block has between operations (R20). `cfg` holds the parameters
of R3, which no operation changes. `pending` and `results` are the model's own: the host's moves not yet made (log 4) and
what the host has been handed, in order (R172, log 5). -/
structure State where
  /-- The parameters `KEY`, `RXBUF_CAP`, `RXCNT_W` (R3). -/
  cfg : Config
  /-- `RXBUF`, the oldest byte first (R13). `RXLEN` is its length. -/
  rxbuf : List Byte
  /-- `RX_TOTAL` (R14). -/
  rxTotal : Nat
  /-- The host's moves not yet made, the next one first (log 4). -/
  pending : List HostMove
  /-- The results handed to the host, the oldest first (R172, log 5). -/
  results : List Result
deriving DecidableEq, Repr

/-- No operation raises anything (R140), the block takes no trap (R146) and no buffer content is undefined for it (R128):
there is no fault. -/
inductive Fault where
deriving DecidableEq, Repr

/-- The refusals of R142: the transaction has no step, no result and changes no state. Every one is safe: the model stops
where the spec gives no step. -/
inductive Refusal where
  /-- An operation without a meaning yet. No arm of `exec` answers it: every operation is modelled. Safe. -/
  | notModelled (mnemonic : String)
  /-- `ENCODE` with more than 1020 payload bytes (R92). Raised by `execEncode`. Safe. -/
  | payloadTooLong
  /-- `DECODE_BODY` with fewer than 4 bytes (R103). Raised by `execDecodeBody`. Safe. -/
  | bodyTooShort
  /-- `RX_PUSH` beyond a finite capacity (R111). Raised by `execRxPush`. Safe. -/
  | bufferFull
  /-- A transaction with an unassigned code (R60). Raised by `issue`. Safe. -/
  | unassignedCode (code : Byte)
  /-- A transaction whose operands are not those of its code (log 2). Raised by `issue`. Safe. -/
  | operandMismatch (code : Byte)
deriving DecidableEq, Repr

/-- The state after reset (R21, R160) of a block built with the parameters `cfg`: an empty buffer, a counter at zero,
nothing in progress and no result pending. -/
def State.launch (cfg : Config) : State :=
  { cfg := cfg, rxbuf := [], rxTotal := 0, pending := [], results := [] }

/-- The state after reset with the defaults of R3 (logs 6, 7, 8, 14). -/
def State.reset : State := State.launch Config.default

end Sys2Proof.Machine
end

