-- ==== Sys2Proof/Machine/Flags.lean ====
section
/-! DEFINITION. The block has no flags and no condition codes (R12). What stands here is what it has in their place: the
one bit the checksum tests, and the ten outcomes of a `SCAN` (R141), which are names of branches and no output. -/

namespace Sys2Proof.Machine

/-- Bit 15 of the working register `crc` (R12, R70). -/
def topBit (crc : U16) : Bool := crc.getLsbD 15

/-- The outcomes of R141. "The block outputs neither" label nor number (decision D17). -/
inductive ScanOutcome where
  | waitMin
  | noMarkerKeep
  | noMarkerClear
  | waitLen
  | oversize
  | waitFrame
  | badTail
  | shortRegion
  | badChecksum
  | message
deriving DecidableEq, Repr

/-- The column "Discards" of R141: how many bytes the outcome removes from the front, beyond a garbage prefix that step 4
removed, for a buffer of `rxlen` bytes and a frame of body length `n`. -/
def ScanOutcome.discards (rxlen n : Nat) : ScanOutcome → Nat
  | .waitMin => 0
  | .noMarkerKeep => rxlen - 1
  | .noMarkerClear => rxlen
  | .waitLen => 0
  | .oversize => 2
  | .waitFrame => 0
  | .badTail => 2
  | .shortRegion => n + 8
  | .badChecksum => n + 8
  | .message => n + 8

/-- The column "FrameDesync" of R141; `none` where it says "not named by §7". -/
def ScanOutcome.frameDesync : ScanOutcome → Option Bool
  | .waitMin => some false
  | .noMarkerKeep => some true
  | .noMarkerClear => some true
  | .waitLen => some false
  | .oversize => some true
  | .waitFrame => some false
  | .badTail => some true
  | .shortRegion => none
  | .badChecksum => none
  | .message => some false

end Sys2Proof.Machine
end

