-- ==== Sys2Proof/Machine/Operands.lean ====
section
/-! DEFINITION. The operand and field forms of R4 (little-endian fields R30, slices) and the operand ranges of R60. -/

namespace Sys2Proof.Machine

/-- `v[7:0]` (R4). -/
def lowByte (v : U16) : Byte := v.extractLsb' 0 8

/-- `v[15:8]` (R4). -/
def highByte (v : U16) : Byte := v.extractLsb' 8 8

/-- `LE16(v) = [v[7:0], v[15:8]]` (R4, R30). -/
def le16 (v : U16) : List Byte := [lowByte v, highByte v]

/-- Byte `i` of a sequence (R4 `s[i]`, `RXBUF[i]`). The rules read only bytes that exist, `i < len(s)`; the value past the
end is never used (log 23). -/
def byteAt (s : List Byte) (i : Nat) : Byte := s.getD i 0

/-- `U16LE(s, i)`: the u16 `s[i] + 256 * s[i+1]` (R4, R30), the byte at the higher offset being bits 15 to 8. -/
def u16le (s : List Byte) (i : Nat) : U16 := byteAt s (i + 1) ++ byteAt s i

/-- `s[a ..< b]`: the bytes `a` to `b-1` (R4). -/
def slice (s : List Byte) (a b : Nat) : List Byte := (s.drop a).take (b - a)

/-- `len(payload) <= 1020`, the range of `ENCODE` (R90, R92). -/
def payloadInRange (payload : List Byte) : Bool := decide (payload.length ≤ MAX_PAYLOAD)

/-- `len(obf) >= 4`, the range of `DECODE_BODY` (R100, R103). -/
def bodyInRange (masked : List Byte) : Bool := decide (4 ≤ masked.length)

end Sys2Proof.Machine
end

