-- ==== Sys2Proof/Machine/Ops.lean ====
section
/-! DEFINITION. The named operations over the reassembly buffer (R4 `Append`, `DropPrefix`, `Find2`, `MemRead`; R13), the
counter (R14), the result port (R60) and the reset event (R160). The block has no exception entry and no return from one:
recovery from a malformed frame is a `DropPrefix` and nothing else (R146, R147). -/

namespace Sys2Proof.Machine

/-- `Append(s)`: at the end (R4, R13). -/
def append (rxbuf chunk : List Byte) : List Byte := rxbuf ++ chunk

/-- `DropPrefix(k)`: at the front (R4, R13); the recovery action of R146. -/
def dropPrefix (rxbuf : List Byte) (k : Nat) : List Byte := rxbuf.drop k

/-- `Find2(s, b0, b1)`: the least offset at which `b0` is followed by `b1` (R4, R115). -/
def find2 (b0 b1 : Byte) : List Byte → Option Nat
  | [] => none
  | [_] => none
  | x :: y :: rest => if x = b0 ∧ y = b1 then some 0 else (find2 b0 b1 (y :: rest)).map (· + 1)

/-- `MemRead(addr, 2)`: the little-endian u16 at a buffer offset (R4). -/
def memRead2 (rxbuf : List Byte) (addr : Nat) : U16 := u16le rxbuf addr

/-- `MemRead(addr, 1)`, which is `RXBUF[addr]` (R4). -/
def memRead1 (rxbuf : List Byte) (addr : Nat) : Byte := byteAt rxbuf addr

/-- `RXLEN <= RXBUF_CAP` (R10_state table, R13, R111): what a buffer of the block satisfies (log 26). -/
def Memory.wf (cfg : Config) (rxbuf : List Byte) : Bool :=
  match cfg.rxbufCap with
  | none => true
  | some cap => decide (rxbuf.length ≤ cap)

/-- Whether `RX_PUSH(s)` is accepted: `RXLEN + len(s) <= RXBUF_CAP` (R110, R111); always, with the default capacity. -/
def State.accepts (s : State) (chunk : List Byte) : Bool := Memory.wf s.cfg (append s.rxbuf chunk)

/-- The counter kept modulo `2^RXCNT_W` when that width is finite (R14). -/
def wrapCount (cfg : Config) (n : Nat) : Nat :=
  match cfg.rxcntW with
  | none => n
  | some w => n % 2 ^ w

/-- The two effects of an accepted push (R110): the append, and the count. -/
def State.push (s : State) (chunk : List Byte) : State :=
  { s with rxbuf := append s.rxbuf chunk, rxTotal := wrapCount s.cfg (s.rxTotal + chunk.length) }

/-- What is left in the buffer after a scan (R112): `SCAN` writes `RXBUF` only. -/
def State.withRxbuf (s : State) (rxbuf : List Byte) : State := { s with rxbuf := rxbuf }

/-- The result is handed to the host (R60, R172). -/
def State.deliver (s : State) (r : Result) : State := { s with results := s.results ++ [r] }

/-- The host's next move is taken from the queue (log 4). -/
def State.withPending (s : State) (moves : List HostMove) : State := { s with pending := moves }

/-- The reset event (R160): the buffer empty, the counter 0, nothing else changed. -/
def State.resetEvent (s : State) : State := { s with rxbuf := [], rxTotal := 0 }

end Sys2Proof.Machine
end

