-- ==== Sys2Proof/Machine/Checksum.lean ====
section
/-! DEFINITION. The checksum generator and verifier: `CRC16` (R70) and `CRCCHK` (R72). -/

namespace Sys2Proof.Machine

/-- One of the eight rounds of R70: bit 15 is tested before the shift (decision D13, log 15). -/
def crcRound (crc : U16) : U16 := if topBit crc then (crc <<< 1) ^^^ CRC_POLY else crc <<< 1

/-- Rounds of R70, one after another. -/
def crcRounds : Nat → U16 → U16
  | 0, crc => crc
  | n + 1, crc => crcRounds n (crcRound crc)

/-- One byte of R70: XOR-ed into bits 15:8, then eight rounds. -/
def crcByte (crc : U16) (b : Byte) : U16 := crcRounds 8 (crc ^^^ (b.zeroExtend 16 <<< 8))

/-- `CRC16(data)` (R70). The working register starts at `CRC_INIT` in every evaluation (R10). -/
def crc16 (data : List Byte) : U16 := data.foldl crcByte CRC_INIT

/-- `CRCCHK(data, expected)` (R72). -/
def crcGood (data : List Byte) (expected : U16) : Bool := decide (crc16 data = expected)

/-- `CRC16 data` (R70): the checksum is returned; no state is read or written. -/
def execCrc16 (data : List Byte) (s : State) : Host.Outcome State Fault Refusal :=
  .next (s.deliver (.checksum (crc16 data)))

/-- `CRCCHK data, expected` (R72): the comparison is returned. -/
def execCrcchk (data : List Byte) (expected : U16) (s : State) : Host.Outcome State Fault Refusal :=
  .next (s.deliver (.verdict (crcGood data expected)))

end Sys2Proof.Machine
end

