-- ==== Sys2Proof/Machine/Obfuscation.lean ====
section
/-! DEFINITION. The XOR mask: `OBF` (R80) and `DEOBF` (R82). -/

namespace Sys2Proof.Machine

/-- `KEY[i mod 16]` (R18, R80). -/
def keyByte (key : Vector Byte 16) (i : Nat) : Byte := key[i % 16]'(Nat.mod_lt i (by decide))

/-- The mask of R80, where the first byte of the sequence has index `i`. -/
def obfFrom (key : Vector Byte 16) : Nat → List Byte → List Byte
  | _, [] => []
  | i, b :: rest => (b ^^^ keyByte key i) :: obfFrom key (i + 1) rest

/-- `OBF(data)` (R80): the index counts from the first byte of the sequence given. -/
def obf (key : Vector Byte 16) (data : List Byte) : List Byte := obfFrom key 0 data

/-- `DEOBF(data)` is `OBF(data)` (R82). -/
def deobf (key : Vector Byte 16) (data : List Byte) : List Byte := obf key data

/-- `OBF data` (R80): the masked sequence is returned. -/
def execObf (data : List Byte) (s : State) : Host.Outcome State Fault Refusal :=
  .next (s.deliver (.bytes (obf s.cfg.key data)))

/-- `DEOBF data` (R82): the unmasked sequence is returned. -/
def execDeobf (data : List Byte) (s : State) : Host.Outcome State Fault Refusal :=
  .next (s.deliver (.bytes (deobf s.cfg.key data)))

end Sys2Proof.Machine
end

