-- ==== Sys2Proof/Machine/FrameEncode.lean ====
section
/-! DEFINITION. Building a frame: `ENCODE` (R90 to R93), on the layout of R50 to R55. -/

namespace Sys2Proof.Machine

/-- The pad of R91: one zero byte exactly when `4 + L` is odd. -/
def pad (payload : List Byte) : List Byte := if (4 + payload.length) % 2 = 1 then [0x00] else []

/-- The body in the clear (R53): `LE16(message_type) ++ LE16(L) ++ payload`, padded to even length (R91). -/
def clearBody (messageType : U16) (payload : List Byte) : List Byte :=
  le16 messageType ++ le16 (BitVec.ofNat 16 payload.length) ++ payload ++ pad payload

/-- A body wrapped into a frame (R50, R51, R90): header marker, `LE16(N)`, the masked body and checksum, tail marker. -/
def frameOf (key : Vector Byte 16) (body : List Byte) : List Byte :=
  le16 HDR ++ le16 (BitVec.ofNat 16 body.length) ++ obf key (body ++ le16 (crc16 body)) ++ le16 TAIL

/-- The frame that carries a message (R90). -/
def encodeFrame (key : Vector Byte 16) (messageType : U16) (payload : List Byte) : List Byte :=
  frameOf key (clearBody messageType payload)

/-- `ENCODE message_type, payload` (R90): the frame is returned; a payload over 1020 bytes is refused (R92). -/
def execEncode (messageType : U16) (payload : List Byte) (s : State) : Host.Outcome State Fault Refusal :=
  if payloadInRange payload then .next (s.deliver (.bytes (encodeFrame s.cfg.key messageType payload)))
  else .refused .payloadTooLong

end Sys2Proof.Machine
end

