-- ==== Sys2Proof/Machine/FrameDecode.lean ====
section
/-! DEFINITION. Taking a message out of a body: `DECODE_BODY` (R100), `ParseBody` (R101), `ParseRegion` (R102). -/

namespace Sys2Proof.Machine

/-- `ParseBody(plain)` for a clear body of at least 4 bytes (R101): the payload is the first
`min(declared_len, N - 4)` bytes after the header (decision D10, log 18). -/
def parseBody (plain : List Byte) : Message :=
  let declared := (u16le plain 2).toNat
  let avail := plain.length - 4
  { messageType := u16le plain 0, payload := slice plain 4 (4 + min declared avail) }

/-- `ParseRegion(D, N)` for a clear region of `N + 2` bytes, at least 4 (R102): the header is read from the region, the
payload is bounded by the body (decision D11, log 19). Subtraction on naturals is `max(N - 4, 0)`. -/
def parseRegion (region : List Byte) (n : Nat) : Message :=
  let declared := (u16le region 2).toNat
  let avail := n - 4
  { messageType := u16le region 0, payload := slice region 4 (4 + min declared avail) }

/-- `DECODE_BODY obf` (R100): unmask and parse, no checksum test; fewer than 4 bytes are refused (R103). -/
def execDecodeBody (masked : List Byte) (s : State) : Host.Outcome State Fault Refusal :=
  if bodyInRange masked then .next (s.deliver (.decoded (parseBody (deobf s.cfg.key masked))))
  else .refused .bodyTooShort

end Sys2Proof.Machine
end

