-- ==== Sys2Proof/Machine/Scanner.lean ====
section
/-! DEFINITION. The stream frame-boundary scanner: `RX_PUSH` (R110), `SCAN` (R112 to R123), `POLL` (R125). -/

namespace Sys2Proof.Machine

/-- What one pass over the buffer comes to: the branch taken (R141), what is left, and what is returned. -/
structure ScanPass where
  outcome : ScanOutcome
  rest : List Byte
  found : Option Message
deriving DecidableEq, Repr

/-- Step 9 (R122, R123) for a whole frame of body length `n` at offset 0: the frame goes in every case, then the region's
length is tested, then the checksum (decision D8, log 17). -/
def scanRegion (key : Vector Byte 16) (rxbuf : List Byte) (n : Nat) : ScanPass :=
  let region := deobf key (slice rxbuf 4 (4 + n + 2))
  let rest := dropPrefix rxbuf (n + 8)
  if region.length < 4 then ⟨.shortRegion, rest, none⟩
  else if crcGood (slice region 0 n) (u16le region n) then ⟨.message, rest, some (parseRegion region n)⟩
  else ⟨.badChecksum, rest, none⟩

/-- Steps 5 to 9 (R117, R119, R120, R121), the marker being at offset 0. The comparison with 1024 and the sum `N + 8` are
exact (R6). -/
def scanFrame (key : Vector Byte 16) (rxbuf : List Byte) : ScanPass :=
  if rxbuf.length < 4 then ⟨.waitLen, rxbuf, none⟩
  else
    let n := (memRead2 rxbuf 2).toNat
    if MAX_BODY < n then ⟨.oversize, dropPrefix rxbuf 2, none⟩
    else if rxbuf.length < n + 8 then ⟨.waitFrame, rxbuf, none⟩
    else if memRead1 rxbuf (n + 6) = lowByte TAIL ∧ memRead1 rxbuf (n + 7) = highByte TAIL then scanRegion key rxbuf n
    else ⟨.badTail, dropPrefix rxbuf 2, none⟩

/-- One pass over the buffer (R112): steps 2 to 4 (R113 to R116), then `scanFrame`. -/
def scanPass (key : Vector Byte 16) (rxbuf : List Byte) : ScanPass :=
  if rxbuf.length < MIN_FRAME then ⟨.waitMin, rxbuf, none⟩
  else
    match find2 (lowByte HDR) (highByte HDR) rxbuf with
    | none =>
      if memRead1 rxbuf (rxbuf.length - 1) = lowByte HDR then
        ⟨.noMarkerKeep, dropPrefix rxbuf (rxbuf.length - 1), none⟩
      else ⟨.noMarkerClear, dropPrefix rxbuf rxbuf.length, none⟩
    | some k => scanFrame key (dropPrefix rxbuf k)

/-- The state after a pass: the buffer is what the pass left, the host has its result; `RX_TOTAL` is untouched (R112). -/
def State.afterScan (s : State) : State :=
  let pass := scanPass s.cfg.key s.rxbuf
  (s.withRxbuf pass.rest).deliver (.scanned pass.found)

/-- `RX_PUSH s` (R110): append and count, or be refused whole (R111). -/
def execRxPush (chunk : List Byte) (s : State) : Host.Outcome State Fault Refusal :=
  if s.accepts chunk then .next ((s.push chunk).deliver .nothing) else .refused .bufferFull

/-- `SCAN` (R112). -/
def execScan (s : State) : Host.Outcome State Fault Refusal := .next s.afterScan

/-- `POLL s` (R125): the push, then the scan, whose result is the result; a refused push leaves the scan to run (decision
D5, log 11). -/
def execPoll (chunk : List Byte) (s : State) : Host.Outcome State Fault Refusal :=
  .next (if s.accepts chunk then (s.push chunk).afterScan else s.afterScan)

end Sys2Proof.Machine
end

