-- ==== Sys2Proof/Machine/Dispatch.lean ====
section
/-! DEFINITION. One arm per operation of spec/opcode_table.json. -/

namespace Sys2Proof.Machine

/-- The effect of one operation (R60): the meaning of its row. -/
def exec (i : Instr) (s : State) : Host.Outcome State Fault Refusal :=
  match i with
  | .crc16 data => Sys2Proof.Machine.execCrc16 data s
  | .crcchk data expected => Sys2Proof.Machine.execCrcchk data expected s
  | .obf data => Sys2Proof.Machine.execObf data s
  | .deobf data => Sys2Proof.Machine.execDeobf data s
  | .encode messageType payload => Sys2Proof.Machine.execEncode messageType payload s
  | .decodeBody masked => Sys2Proof.Machine.execDecodeBody masked s
  | .rxPush chunk => Sys2Proof.Machine.execRxPush chunk s
  | .scan => Sys2Proof.Machine.execScan s
  | .poll chunk => Sys2Proof.Machine.execPoll chunk s

end Sys2Proof.Machine
end

