-- ==== Sys2Proof/Machine/Issue.lean ====
section
/-! DEFINITION. The host's moves carried out: a transaction is decoded and runs (R60), a reset takes effect between
operations (R160). -/

namespace Sys2Proof.Machine

/-- The refusal of a transaction that is no instruction (R60, R142). -/
def refusalOf : DecodeError → Refusal
  | .unassignedCode code => .unassignedCode code
  | .operandMismatch code => .operandMismatch code

/-- One transaction, carried out whole (R35, R60). -/
def issue (t : Transaction) (s : State) : Host.Outcome State Fault Refusal :=
  match decode t with
  | .ok i => exec i s
  | .error e => .refused (refusalOf e)

/-- One move of the host (R171). -/
def perform (m : HostMove) (s : State) : Host.Outcome State Fault Refusal :=
  match m with
  | .issue t => issue t s
  | .reset => .next s.resetEvent

/-- The host's next move is made; with none the block does nothing, for it acts only when the host issues an operation
(R11, R144, R172; log 4). -/
def advance (s : State) : Host.Outcome State Fault Refusal :=
  match s.pending with
  | [] => .next s
  | m :: rest => perform m (s.withPending rest)

end Sys2Proof.Machine
end

