-- ==== Sys2Proof/Machine/Step.lean ====
section
/-! DEFINITION. One step of the block: the host's next move, whole (R5, R35, R39). -/

namespace Sys2Proof.Machine

/-- One step. -/
def step (s : State) : Host.Outcome State Fault Refusal := advance s

/-- The transaction of a table word becomes the host's next move (log 3, log 4), before those already waiting. -/
def State.withFetchWord (s : State) (nbits w : Nat) : State :=
  s.withPending (.issue (tableTransaction nbits w) :: s.pending)

end Sys2Proof.Machine
end

