-- ==== Sys2Proof/WellFormed.lean ====
section
/-! DEFINITION. The operand ranges R60 gives: `ENCODE` takes 0 to 1020 payload bytes (R90, R92), `DECODE_BODY` at least 4
bytes (R100, R103); every other operation takes every operand of its types. -/

namespace Sys2Proof

/-- The operands lie in the range the operation's row of R60 gives. -/
def Instr.wellFormed : Instr → Bool
  | .crc16 _ => true
  | .crcchk _ _ => true
  | .obf _ => true
  | .deobf _ => true
  | .encode _ payload => decide (payload.length ≤ MAX_PAYLOAD)
  | .decodeBody masked => decide (4 ≤ masked.length)
  | .rxPush _ => true
  | .scan => true
  | .poll _ => true

end Sys2Proof
end

