-- ==== Sys2Proof/Safety.lean ====
section
/-! DEFINITION. The terms claims are stated in: where a marker stands, when an operation is admitted, what every state of a
run satisfies, and what a run of the host's moves pushes. -/

namespace Sys2Proof.Machine

/-- The number two bytes stand for, the lower offset first: `s[i] + 256 * s[i+1]` (R4, R30). -/
def leNat (lo hi : Byte) : Nat := lo.toNat + 256 * hi.toNat

/-- The header marker stands at offset `i`: byte AB immediately followed by byte CD (R115). -/
def MarkerAt (s : List Byte) (i : Nat) : Prop := s[i]? = some 0xAB ∧ s[i + 1]? = some 0xCD

/-- The pair AB CD does not occur (R114, R128). -/
def NoMarker (s : List Byte) : Prop := ∀ i, ¬ MarkerAt s i

/-- The offset `k` is that of the leftmost marker (R115). -/
def LeftmostMarker (s : List Byte) (k : Nat) : Prop := MarkerAt s k ∧ ∀ j, j < k → ¬ MarkerAt s j

/-- An operation that has a step: its operands lie in range (R92, R103), and a push fits (R111). Every other transaction is
refused (R142). -/
def admitted (i : Instr) (s : State) : Bool :=
  i.wellFormed && match i with
    | .rxPush chunk => s.accepts chunk
    | _ => true

/-- The counter is below `2^RXCNT_W` where that width is finite (R14). -/
def counterInRange (cfg : Config) (n : Nat) : Bool :=
  match cfg.rxcntW with
  | none => true
  | some w => decide (n < 2 ^ w)

/-- What every state of a run satisfies: parameters R3 allows, `RXLEN <= RXBUF_CAP` (R13, R111), a counter in its width
(R14). -/
def State.wf (s : State) : Bool := s.cfg.wf && Memory.wf s.cfg s.rxbuf && counterInRange s.cfg s.rxTotal

/-- The bytes an operation offers to the buffer: the operand of `RX_PUSH` and `POLL` (R110, R125). -/
def offeredBy : Instr → List Byte
  | .crc16 _ => []
  | .crcchk _ _ => []
  | .obf _ => []
  | .deobf _ => []
  | .encode _ _ => []
  | .decodeBody _ => []
  | .rxPush chunk => chunk
  | .scan => []
  | .poll chunk => chunk

/-- The bytes a move of the host offers to the buffer (R171). -/
def offeredByMove : HostMove → List Byte
  | .issue t => match decode t with
    | .ok i => offeredBy i
    | .error _ => []
  | .reset => []

/-- The host issues one instruction (R60). -/
def move (i : Instr) : HostMove := .issue (encode i)

/-- The six operations of the encoder (R5, R36). -/
def isPure : Instr → Bool
  | .crc16 _ => true
  | .crcchk _ _ => true
  | .obf _ => true
  | .deobf _ => true
  | .encode _ _ => true
  | .decodeBody _ => true
  | .rxPush _ => false
  | .scan => false
  | .poll _ => false

end Sys2Proof.Machine
end

