-- ==== Sys2Proof/Certificates/Slice0/Obligations.lean ====
section
/-! DEFINITION. The statements for the provers. Each says what a numbered rule of spec/ says of the block, over every state
and so over every `KEY`, `RXBUF_CAP` and `RXCNT_W` unless a premise names them. A statement that rests on a decision of the
spec (D<n>), on an inference the spec marks as its own, or on a log entry of the model says so. -/

open Sys2Proof Sys2Proof.Machine

/-! ## Transactions, decoding, stepping -/

/-- The command codes of R60, written out bit by bit, decode to their operations; a table word carries operands of zeros
(log 3, the model's choice). The codes are the spec's decision D2. -/
def Obligations.CommandWordsDecodeAsTabled : Prop :=
  decodeTableWord 8 0b00000001 = some (.crc16 []) ∧
  decodeTableWord 8 0b00000010 = some (.crcchk [] 0) ∧
  decodeTableWord 8 0b00000011 = some (.obf []) ∧
  decodeTableWord 8 0b00000100 = some (.deobf []) ∧
  decodeTableWord 8 0b00000101 = some (.encode 0 []) ∧
  decodeTableWord 8 0b00000110 = some (.decodeBody [0, 0, 0, 0]) ∧
  decodeTableWord 8 0b00000111 = some (.rxPush []) ∧
  decodeTableWord 8 0b00001000 = some .scan ∧
  decodeTableWord 8 0b00001001 = some (.poll []) ∧
  decode ⟨0b00000101, [.u16 0x1234, .bytes [0xAA]]⟩ = .ok (.encode 0x1234 [0xAA]) ∧
  decode ⟨0b00000010, [.bytes [0x34, 0x12], .u16 0xCB1B]⟩ = .ok (.crcchk [0x34, 0x12] 0xCB1B)

/-- Decode and encode agree on every transaction: an encoded instruction decodes to itself, and a transaction that decodes
is the one the instruction encodes to. The codes are decision D2, the typed operands log 1. -/
def Obligations.DecodeAndEncodeAgree : Prop :=
  (∀ i : Instr, decode (encode i) = .ok i) ∧
  (∀ (t : Transaction) (i : Instr), decode t = .ok i → encode i = t)

/-- A step runs the decoded instruction: the host's next transaction, taken from the queue, and nothing else happens around
it. The queue is the model's (log 4). -/
def Obligations.StepRunsTheDecodedInstruction : Prop :=
  ∀ (s : State) (t : Transaction) (moves : List HostMove) (i : Instr),
    s.pending = .issue t :: moves → decode t = .ok i →
      step s = exec i { s with pending := moves }

/-- The reset event empties the buffer and zeroes the counter and changes nothing else (R160, decision D7); with no move of
the host pending nothing happens (log 4). -/
def Obligations.ResetEventAndIdleStep : Prop :=
  ∀ s : State,
    (∀ moves, s.pending = .reset :: moves →
      step s = .next { s with rxbuf := [], rxTotal := 0, pending := moves }) ∧
    (s.pending = [] → step s = .next s)

/-- After reset the buffer is empty and the counter 0 (R21, decision D7), nothing is pending and nothing has been handed
over (logs 4, 5), and the state is one a run may hold. -/
def Obligations.ResetStateIsEmptyAndWellFormed : Prop :=
  State.reset.rxbuf = [] ∧ State.reset.rxTotal = 0 ∧ State.reset.pending = [] ∧ State.reset.results = [] ∧
  State.reset.wf = true

/-- A transaction with a code outside 0x01 to 0x09 is refused by name, whatever its operands; every code inside has operands
with which it decodes (R60, R142; the codes are decision D2). -/
def Obligations.UnassignedCodesAreRefused : Prop :=
  (∀ (s : State) (t : Transaction) (moves : List HostMove),
    s.pending = .issue t :: moves → t.code.toNat = 0 ∨ 9 < t.code.toNat →
      step s = .refused (.unassignedCode t.code)) ∧
  (∀ code : Byte, 1 ≤ code.toNat → code.toNat ≤ 9 →
    ∃ (operands : List Operand) (i : Instr), decode ⟨code, operands⟩ = .ok i)

/-- An operation is refused in exactly the three cases of R142 (decisions D12, D15, D5): a payload over 1020 bytes, a body
under 4 bytes, a push beyond a finite capacity. -/
def Obligations.OperationsRefusedExactlyAsListed : Prop :=
  ∀ (i : Instr) (s : State) (r : Refusal),
    exec i s = .refused r ↔
      (∃ ty payload, i = .encode ty payload ∧ 1020 < payload.length ∧ r = .payloadTooLong) ∨
      (∃ masked, i = .decodeBody masked ∧ masked.length < 4 ∧ r = .bodyTooShort) ∨
      (∃ chunk cap, i = .rxPush chunk ∧ s.cfg.rxbufCap = some cap ∧ cap < s.rxbuf.length + chunk.length ∧
        r = .bufferFull)

/-! ## Checksum -/

/-- `CRC16` (R70): the result is returned and nothing else changes; the empty sequence gives 0; each further byte is XOR-ed
into bits 15:8 and eight rounds follow, bit 15 being tested before the shift (the order is decision D13, log 15). -/
def Obligations.Crc16RegisterRecurrence : Prop :=
  (∀ (s : State) (data : List Byte),
    exec (.crc16 data) s = .next { s with results := s.results ++ [.checksum (crc16 data)] }) ∧
  crc16 [] = 0x0000 ∧
  (∀ (data : List Byte) (b : Byte),
    crc16 (data ++ [b]) =
      (fun c : U16 => if c.getLsbD 15 then (c <<< 1) ^^^ 0x1021 else c <<< 1)^[8]
        (crc16 data ^^^ (b.zeroExtend 16 <<< 8))) ∧
  crc16 [0x80] = 0x9188

/-- "Within a byte, the checksum treats bit 7 as the first bit" (R31): the checksum is that of a bit-serial register fed the
bits of the data one at a time, bit 7 of each byte first, each bit compared with the register's top bit (order: D13). -/
def Obligations.Crc16IsBitSerialMsbFirst : Prop :=
  ∀ data : List Byte,
    crc16 data =
      (data.flatMap fun b => [7, 6, 5, 4, 3, 2, 1, 0].map b.getLsbD).foldl
        (fun (c : U16) (bit : Bool) => if c.getLsbD 15 != bit then (c <<< 1) ^^^ 0x1021 else c <<< 1) 0x0000

/-- R71 item d, an inference the spec marks as its own: a sequence followed by its checksum, high byte first, has checksum
0. -/
def Obligations.Crc16OfDataThenChecksumIsZero : Prop :=
  ∀ data : List Byte,
    crc16 (data ++ [(crc16 data).extractLsb' 8 8, (crc16 data).extractLsb' 0 8]) = 0

/-- Corner cases of R70 (and R165): any run of zero bytes has checksum 0, and leading zero bytes do not change a checksum. -/
def Obligations.Crc16IgnoresLeadingZeros : Prop :=
  ∀ (n : Nat) (data : List Byte),
    crc16 (List.replicate n 0x00) = 0 ∧ crc16 (List.replicate n 0x00 ++ data) = crc16 data

/-- Two sequences of one length that differ in one byte alone have different checksums: derived from R70, it is what makes
the comparison of R72 catch every corruption confined to a byte. -/
def Obligations.Crc16DetectsOneChangedByte : Prop :=
  ∀ (before after : List Byte) (x y : Byte), x ≠ y →
    crc16 (before ++ [x] ++ after) ≠ crc16 (before ++ [y] ++ after)

/-- `CRCCHK` (R72): true exactly when the checksum of the data is the one expected; nothing else changes; the corner cases
and the worked example of the rule. -/
def Obligations.CrcchkReturnsTheComparison : Prop :=
  (∀ (s : State) (data : List Byte) (expected : U16),
    ∃ good : Bool, exec (.crcchk data expected) s = .next { s with results := s.results ++ [.verdict good] } ∧
      (good = true ↔ crc16 data = expected)) ∧
  (∀ s : State, exec (.crcchk [] 0) s = .next { s with results := s.results ++ [.verdict true] }) ∧
  (∀ (s : State) (n : Nat),
    exec (.crcchk (List.replicate n 0x00) 0) s = .next { s with results := s.results ++ [.verdict true] }) ∧
  (∀ s : State, exec (.crcchk [0x34, 0x12, 0x00, 0x00] 0xCB1B) s =
    .next { s with results := s.results ++ [.verdict true] }) ∧
  (∀ s : State, exec (.crcchk [0x34, 0x12, 0x00, 0x00] 0xCB1A) s =
    .next { s with results := s.results ++ [.verdict false] })

/-! ## Obfuscation -/

/-- `OBF` (R80): byte `i` of the result is byte `i` of the operand XOR-ed with key byte `i mod 16`, the length is kept and
nothing else changes; zero bytes read the key table out; prefixes are preserved, and so are slices from a multiple of 16,
and from other offsets not in general; the worked example under the suggested default key. -/
def Obligations.ObfMasksByteByByte : Prop :=
  (∀ (s : State) (data : List Byte),
    ∃ out : List Byte, exec (.obf data) s = .next { s with results := s.results ++ [.bytes out] } ∧
      out.length = data.length ∧
      ∀ (i : Nat) (h : i < data.length),
        out[i]? = some (data[i] ^^^ s.cfg.key[i % 16]'(Nat.mod_lt i (Nat.succ_pos 15)))) ∧
  (∀ key, obf key [] = []) ∧
  (∀ (key : Vector Byte 16) (n i : Nat), i < n →
    (obf key (List.replicate n 0x00))[i]? = some (key[i % 16]'(Nat.mod_lt i (Nat.succ_pos 15)))) ∧
  (∀ (key : Vector Byte 16) (s : List Byte) (k : Nat), (obf key s).take k = obf key (s.take k)) ∧
  (∀ (key : Vector Byte 16) (s : List Byte) (a b : Nat), a % 16 = 0 →
    ((obf key s).drop a).take (b - a) = obf key ((s.drop a).take (b - a))) ∧
  (∃ (key : Vector Byte 16) (s : List Byte) (a : Nat), a % 16 ≠ 0 ∧ (obf key s).drop a ≠ obf key (s.drop a)) ∧
  obf suggestedKey [0x34, 0x12, 0x00, 0x00, 0x1B, 0xCB] = [0x22, 0x7E, 0x14, 0xE6, 0x35, 0x5A]

/-- R81: masking twice gives the sequence back; masking keeps the length, is one-to-one and onto, and commutes with XOR (the
last sentence of the rule is an inference the spec marks as its own). -/
def Obligations.ObfIsAnInvolutionOnSequences : Prop :=
  ∀ key : Vector Byte 16,
    (∀ x, obf key (obf key x) = x) ∧
    (∀ x, (obf key x).length = x.length) ∧
    Function.Bijective (obf key) ∧
    (∀ a b : List Byte, a.length = b.length →
      List.zipWith (· ^^^ ·) (obf key a) (obf key b) = List.zipWith (· ^^^ ·) a b)

/-- `DEOBF` is `OBF` (R82): the same next state on every operand, and what `OBF` masked it returns to the clear. -/
def Obligations.DeobfIsObfAndUndoesIt : Prop :=
  (∀ (s : State) (data : List Byte), exec (.deobf data) s = exec (.obf data) s) ∧
  (∀ (s : State) (data : List Byte),
    ∃ masked : List Byte, exec (.obf data) s = .next { s with results := s.results ++ [.bytes masked] } ∧
      exec (.deobf masked) s = .next { s with results := s.results ++ [.bytes data] })

/-! ## ENCODE -/

/-- `ENCODE` on a payload of at most 1020 bytes (R50, R51, R53, R55, R91): the frame returned is AB CD, the body length,
the masked body and checksum, DC BA; the body is the type, the payload length without the pad, the payload and one zero
byte exactly when the length is odd; every 16-bit field has its low byte first; nothing else changes. -/
def Obligations.EncodeReturnsTheFrame : Prop :=
  ∀ (s : State) (ty : U16) (payload : List Byte), payload.length ≤ 1020 →
    let size := payload.length
    let body : List Byte :=
      [BitVec.ofNat 8 ty.toNat, BitVec.ofNat 8 (ty.toNat / 256), BitVec.ofNat 8 size, BitVec.ofNat 8 (size / 256)] ++
        payload ++ (if size % 2 = 1 then [0x00] else [])
    let ck := (crc16 body).toNat
    let n := body.length
    exec (.encode ty payload) s = .next { s with results := s.results ++ [.bytes (
      [0xAB, 0xCD, BitVec.ofNat 8 n, BitVec.ofNat 8 (n / 256)] ++
        obf s.cfg.key (body ++ [BitVec.ofNat 8 ck, BitVec.ofNat 8 (ck / 256)]) ++ [0xDC, 0xBA])] }

/-- Sizes and markers of every frame `ENCODE` makes (R58, R93, inferences the spec marks as its own): `N + 8` bytes, even,
12 to 1032, bytes 2 and 3 holding `N` in the clear, AB CD first and DC BA last. -/
def Obligations.EncodedFrameSizesAndMarkers : Prop :=
  ∀ (key : Vector Byte 16) (ty : U16) (payload : List Byte), payload.length ≤ 1020 →
    ∃ (lo hi : Byte) (mid : List Byte),
      encodeFrame key ty payload = [0xAB, 0xCD, lo, hi] ++ mid ++ [0xDC, 0xBA] ∧
      mid.length = leNat lo hi + 2 ∧
      (encodeFrame key ty payload).length = leNat lo hi + 8 ∧
      (encodeFrame key ty payload).length % 2 = 0 ∧
      12 ≤ (encodeFrame key ty payload).length ∧ (encodeFrame key ty payload).length ≤ 1032

/-- Two different messages never encode to the same frame (R93, an inference the spec marks as its own). -/
def Obligations.EncodeIsOneToOne : Prop :=
  ∀ (key : Vector Byte 16) (ty ty' : U16) (payload payload' : List Byte),
    payload.length ≤ 1020 → payload'.length ≤ 1020 →
      encodeFrame key ty payload = encodeFrame key ty' payload' → ty = ty' ∧ payload = payload'

/-! ## DECODE_BODY -/

/-- `DECODE_BODY` on at least 4 bytes (R100, R101; the cut to the bytes present is decision D10, log 18): the operand is
unmasked from key index 0; type and declared length are its first two little-endian fields; the payload is the first
`min(declared_len, N - 4)` bytes after them; no checksum is tested and nothing else changes. For operands over 1024 bytes a
payload over 1020 bytes is the model's choice (log 25, DEDUCED), against the words "always ... <= 1020" of R101. -/
def Obligations.DecodeBodyReturnsTheMessage : Prop :=
  ∀ (s : State) (b0 b1 b2 b3 : Byte) (rest : List Byte),
    let k : Nat → Byte := fun i => s.cfg.key[i % 16]'(Nat.mod_lt i (Nat.succ_pos 15))
    ∃ (ty : U16) (payload : List Byte),
      exec (.decodeBody (b0 :: b1 :: b2 :: b3 :: rest)) s =
        .next { s with results := s.results ++ [.decoded ⟨ty, payload⟩] } ∧
      ty.toNat = leNat (b0 ^^^ k 0) (b1 ^^^ k 1) ∧
      payload.length = min (leNat (b2 ^^^ k 2) (b3 ^^^ k 3)) rest.length ∧
      ∀ (j : Nat) (h : j < rest.length), j < payload.length → payload[j]? = some (rest[j] ^^^ k (4 + j))

/-- What `ENCODE` put in, `DECODE_BODY` takes out (R90, R100, R101, R104): the masked body of a frame, offsets 4 to `N + 3`,
decodes to the message the frame was made from. -/
def Obligations.DecodeBodyRecoversTheEncodedMessage : Prop :=
  ∀ (s : State) (ty : U16) (payload : List Byte), payload.length ≤ 1020 →
    ∃ frame : List Byte,
      exec (.encode ty payload) s = .next { s with results := s.results ++ [.bytes frame] } ∧
      exec (.decodeBody ((frame.drop 4).take (frame.length - 8))) s =
        .next { s with results := s.results ++ [.decoded ⟨ty, payload⟩] }

/-! ## RX_PUSH -/

/-- `RX_PUSH` within the capacity (R110; the split of `poll` is decision D16, the wrap D6): the bytes go to the end of the
buffer, the counter grows by their number, modulo `2^RXCNT_W` when that is finite, nothing is returned and nothing else
changes. -/
def Obligations.RxPushAppendsAndCounts : Prop :=
  ∀ (s : State) (chunk : List Byte),
    (∀ cap, s.cfg.rxbufCap = some cap → s.rxbuf.length + chunk.length ≤ cap) →
      (s.cfg.rxcntW = none →
        exec (.rxPush chunk) s = .next
          { s with
            rxbuf := s.rxbuf ++ chunk
            rxTotal := s.rxTotal + chunk.length
            results := s.results ++ [.nothing] }) ∧
      (∀ w, s.cfg.rxcntW = some w →
        exec (.rxPush chunk) s = .next
          { s with
            rxbuf := s.rxbuf ++ chunk
            rxTotal := (s.rxTotal + chunk.length) % 2 ^ w
            results := s.results ++ [.nothing] })

/-- Pushing a sequence in one piece or in two leaves the same buffer and the same counter (R110). -/
def Obligations.RxPushInPiecesIsTheSame : Prop :=
  ∀ (s t : State) (a b : List Byte), exec (.rxPush (a ++ b)) s = .next t →
    ∃ t₁ t₂ : State, exec (.rxPush a) s = .next t₁ ∧ exec (.rxPush b) t₁ = .next t₂ ∧
      t₂.rxbuf = t.rxbuf ∧ t₂.rxTotal = t.rxTotal

/-- With a buffer of 1032 bytes or more a `SCAN` always frees space (R111, an inference the spec marks as its own). -/
def Obligations.FullBufferIsAlwaysRelieved : Prop :=
  ∀ s : State, 1032 ≤ s.rxbuf.length →
    ∃ t : State, exec .scan s = .next t ∧ t.rxbuf.length < s.rxbuf.length

/-! ## SCAN, branch by branch -/

/-- Outcome WAIT_MIN (R113): under 8 bytes, whatever they are, nothing is returned and nothing changes. -/
def Obligations.ScanWaitsUnderEightBytes : Prop :=
  ∀ s : State, s.rxbuf.length < 8 →
    exec .scan s = .next { s with results := s.results ++ [.scanned none] }

/-- Outcomes NO_MARKER_KEEP and NO_MARKER_CLEAR (R114): where the pair AB CD does not occur, the buffer keeps a last byte AB
and nothing else, or is emptied. -/
def Obligations.ScanWithoutMarkerKeepsATrailingAB : Prop :=
  ∀ s : State, 8 ≤ s.rxbuf.length → NoMarker s.rxbuf →
    (s.rxbuf.getLast? = some 0xAB →
      exec .scan s = .next { s with rxbuf := [0xAB], results := s.results ++ [.scanned none] }) ∧
    (s.rxbuf.getLast? ≠ some 0xAB →
      exec .scan s = .next { s with rxbuf := [], results := s.results ++ [.scanned none] })

/-- Steps 3 and 4 (R115, R116; the leftmost marker is decision D9, log 16): the bytes before the leftmost marker go, and the
pass goes on in the same `SCAN`. With 8 bytes or more from the marker on it is the pass of the buffer without them; with 4
to 7 it is OVERSIZE or WAIT_FRAME; with fewer than 4 it is WAIT_LEN (R117). -/
def Obligations.ScanDropsWhatPrecedesTheLeftmostMarker : Prop :=
  ∀ (s : State) (g r : List Byte),
    s.rxbuf = g ++ [0xAB, 0xCD] ++ r → NoMarker (g ++ [0xAB]) → 8 ≤ s.rxbuf.length →
      (6 ≤ r.length → exec .scan s = exec .scan { s with rxbuf := [0xAB, 0xCD] ++ r }) ∧
      (r.length < 2 →
        exec .scan s = .next { s with rxbuf := [0xAB, 0xCD] ++ r, results := s.results ++ [.scanned none] }) ∧
      (∀ lo hi r', r = lo :: hi :: r' → r.length < 6 →
        exec .scan s = .next
          { s with
            rxbuf := if 1024 < leNat lo hi then r else [0xAB, 0xCD] ++ r
            results := s.results ++ [.scanned none] })

/-- Outcome OVERSIZE (R119): a body length over 1024 costs exactly the two marker bytes; and a valid frame right after the
remains is returned by the next `SCAN`. -/
def Obligations.ScanDropsOnlyTheMarkerOfAnOversizeFrame : Prop :=
  (∀ (s : State) (lo hi : Byte) (r : List Byte),
    s.rxbuf = [0xAB, 0xCD, lo, hi] ++ r → 4 ≤ r.length → 1024 < leNat lo hi →
      exec .scan s = .next { s with rxbuf := [lo, hi] ++ r, results := s.results ++ [.scanned none] }) ∧
  (∀ (s : State) (lo hi : Byte) (x rest : List Byte) (ty : U16) (payload : List Byte),
    1024 < leNat lo hi → NoMarker ([lo, hi] ++ x) → payload.length ≤ 1020 →
    s.rxbuf = [0xAB, 0xCD, lo, hi] ++ x ++ encodeFrame s.cfg.key ty payload ++ rest →
      ∃ t : State, exec .scan s = .next t ∧ t.results = s.results ++ [.scanned none] ∧
        exec .scan t = .next
          { s with
            rxbuf := rest
            results := s.results ++ [.scanned none, .scanned (some ⟨ty, payload⟩)] })

/-- Outcome WAIT_FRAME (R120): with fewer than `N + 8` bytes from the marker on nothing is returned and nothing changes. -/
def Obligations.ScanWaitsForTheWholeFrame : Prop :=
  ∀ (s : State) (lo hi : Byte) (r : List Byte),
    s.rxbuf = [0xAB, 0xCD, lo, hi] ++ r → leNat lo hi ≤ 1024 → s.rxbuf.length < leNat lo hi + 8 →
      exec .scan s = .next { s with results := s.results ++ [.scanned none] }

/-- Outcome BAD_TAIL (R121): where the two bytes at the tail position are not DC BA, exactly the two bytes of the header
marker go, whatever the region holds (so the tail is tested before the checksum, R145). -/
def Obligations.ScanDropsOnlyTheMarkerOnABadTail : Prop :=
  ∀ (s : State) (lo hi t₀ t₁ : Byte) (region rest : List Byte),
    s.rxbuf = [0xAB, 0xCD, lo, hi] ++ region ++ [t₀, t₁] ++ rest → leNat lo hi ≤ 1024 →
    region.length = leNat lo hi + 2 → ¬ (t₀ = 0xDC ∧ t₁ = 0xBA) →
      exec .scan s = .next
        { s with
          rxbuf := [lo, hi] ++ region ++ [t₀, t₁] ++ rest
          results := s.results ++ [.scanned none] }

/-- Step 9 (R122, R123, R102): a whole frame with a good tail goes, whatever follows. It yields nothing when its region is
shorter than 4 bytes or its checksum is wrong (the place of this test is decision D8, log 17); otherwise the message: the
type is the region's first field, the payload the first `min(declared_len, N - 4)` bytes after the second (decisions D10,
D11, logs 18 and 19). -/
def Obligations.ScanRemovesAWholeFrameAndChecksIt : Prop :=
  ∀ (s : State) (lo hi : Byte) (region rest clear : List Byte),
    let n := leNat lo hi
    s.rxbuf = [0xAB, 0xCD, lo, hi] ++ region ++ [0xDC, 0xBA] ++ rest → n ≤ 1024 → region.length = n + 2 →
    clear = obf s.cfg.key region →
      (n < 2 → exec .scan s = .next { s with rxbuf := rest, results := s.results ++ [.scanned none] }) ∧
      (∀ c₀ c₁, clear[n]? = some c₀ → clear[n + 1]? = some c₁ → (crc16 (clear.take n)).toNat ≠ leNat c₀ c₁ →
        exec .scan s = .next { s with rxbuf := rest, results := s.results ++ [.scanned none] }) ∧
      (∀ c₀ c₁ b₀ b₁ b₂ b₃ tail, clear[n]? = some c₀ → clear[n + 1]? = some c₁ →
        (crc16 (clear.take n)).toNat = leNat c₀ c₁ → clear = b₀ :: b₁ :: b₂ :: b₃ :: tail →
        exec .scan s = .next { s with rxbuf := rest, results := s.results ++ [.scanned (some
          ⟨BitVec.ofNat 16 (leNat b₀ b₁), tail.take (min (leNat b₂ b₃) (n - 4))⟩)] })

/-- Each of the ten outcomes discards what R141 says (the labels are names of branches, decision D17): with `k` the offset of
the leftmost marker, outcomes 4 to 10 remove `k` bytes and their own discard, outcomes 1 to 3 their own alone; a message is
returned in outcome MESSAGE and in no other. -/
def Obligations.ScanOutcomesDiscardAsTabled : Prop :=
  ∀ (key : Vector Byte 16) (buf : List Byte),
    ((scanPass key buf).outcome = .message ↔ (scanPass key buf).found ≠ none) ∧
    ((scanPass key buf).outcome ∈ [ScanOutcome.waitMin, .noMarkerKeep, .noMarkerClear] →
      (scanPass key buf).rest = buf.drop ((scanPass key buf).outcome.discards buf.length 0)) ∧
    ((scanPass key buf).outcome ∉ [ScanOutcome.waitMin, .noMarkerKeep, .noMarkerClear] →
      ∃ k n, LeftmostMarker buf k ∧
        (∀ lo hi, buf[k + 2]? = some lo → buf[k + 3]? = some hi → n = leNat lo hi) ∧
        (scanPass key buf).rest = buf.drop (k + (scanPass key buf).outcome.discards buf.length n))

/-- `SCAN` has a step in every state, whatever the buffer holds (R128: "No input makes the scanner fail"): it removes a
prefix, hands over one result, and a message only with a frame of at least 10 bytes removed (R13, R129). -/
def Obligations.ScanAlwaysCompletesRemovingAPrefix : Prop :=
  ∀ s : State, ∃ (k : Nat) (found : Option Message),
    exec .scan s = .next { s with rxbuf := s.rxbuf.drop k, results := s.results ++ [.scanned found] } ∧
    k ≤ s.rxbuf.length ∧ (found ≠ none → 10 ≤ k)

/-- After a `SCAN` that waits behind a marker, the marker is at offset 0 and a further `SCAN` changes nothing (R36, R118,
inferences the spec marks as its own). -/
def Obligations.WaitingScanKeepsTheMarkerInFront : Prop :=
  ∀ s t : State, exec .scan s = .next t →
    (scanPass s.cfg.key s.rxbuf).outcome = .waitLen ∨ (scanPass s.cfg.key s.rxbuf).outcome = .waitFrame →
      MarkerAt t.rxbuf 0 ∧ exec .scan t = .next { t with results := t.results ++ [.scanned none] }

/-- With no new bytes, at most `RXLEN` scans reach a buffer on which `SCAN` changes nothing, and that buffer is shorter than
8 bytes or begins with AB CD and an incomplete frame (R129, an inference the spec marks as its own). -/
def Obligations.RepeatedScansSettle : Prop :=
  ∀ s : State, s.pending = List.replicate s.rxbuf.length (move .scan) →
    ∃ t : State, core.run s.rxbuf.length s = .next t ∧
      exec .scan t = .next { t with results := t.results ++ [.scanned none] } ∧
      (t.rxbuf.length < 8 ∨
        ∃ lo hi r, t.rxbuf = [0xAB, 0xCD, lo, hi] ++ r ∧ leNat lo hi ≤ 1024 ∧ t.rxbuf.length < leNat lo hi + 8)

/-! ## POLL and whole exchanges -/

/-- `POLL` (R125) is the push and then the scan, with the scan's result alone; when the push does not fit, the scan of the
buffer as it stands (decision D5, log 11). It has a step in every state, and writes the buffer and the counter only. -/
def Obligations.PollIsPushThenScan : Prop :=
  ∀ (s : State) (chunk : List Byte),
    (∀ t, exec (.rxPush chunk) s = .next t →
      exec (.poll chunk) s = exec .scan { t with results := s.results }) ∧
    (∀ r, exec (.rxPush chunk) s = .refused r → exec (.poll chunk) s = exec .scan s) ∧
    (∃ (buf : List Byte) (total : Nat) (found : Option Message),
      exec (.poll chunk) s =
        .next { s with rxbuf := buf, rxTotal := total, results := s.results ++ [.scanned found] })

/-- A frame that `ENCODE` made, at the front of the buffer, comes out as its message and takes nothing of what follows with
it (R126; R94 where nothing follows). -/
def Obligations.ScanReturnsTheEncodedMessage : Prop :=
  ∀ (s : State) (ty : U16) (payload rest : List Byte), payload.length ≤ 1020 →
    s.rxbuf = encodeFrame s.cfg.key ty payload ++ rest →
      exec .scan s = .next { s with rxbuf := rest, results := s.results ++ [.scanned (some ⟨ty, payload⟩)] }

/-- Round trip (R94): from any state a run may hold with an empty buffer, `POLL` of the frame `ENCODE` returned gives the
message back and leaves the buffer empty, for every type and every payload of 0 to 1020 bytes. -/
def Obligations.RoundTripThroughPoll : Prop :=
  ∀ (s : State) (ty : U16) (payload : List Byte), s.wf = true → s.rxbuf = [] → payload.length ≤ 1020 →
    ∃ (frame : List Byte) (t : State),
      exec (.encode ty payload) s = .next { s with results := s.results ++ [.bytes frame] } ∧
      exec (.poll frame) s = .next t ∧
      t.rxbuf = [] ∧ t.results = s.results ++ [.scanned (some ⟨ty, payload⟩)]

/-- Chunked delivery (R127): however a frame is cut into non-empty pieces, one `POLL` a piece returns nothing for every
piece but the last and the message for the last, and leaves the buffer empty. -/
def Obligations.ChunkedDeliveryGivesTheSameMessage : Prop :=
  ∀ (s : State) (ty : U16) (payload : List Byte) (chunks : List (List Byte)),
    s.wf = true → s.rxbuf = [] → payload.length ≤ 1020 →
    chunks.flatten = encodeFrame s.cfg.key ty payload → (∀ c ∈ chunks, c ≠ []) →
    s.pending = chunks.map (fun c => move (.poll c)) →
      ∃ t : State, core.run chunks.length s = .next t ∧ t.rxbuf = [] ∧
        t.results = s.results ++
          (List.replicate (chunks.length - 1) (.scanned none) ++ [.scanned (some ⟨ty, payload⟩)])

/-- Garbage tolerance (R128): bytes in which the marker pair does not occur, before a frame, are dropped and the message is
returned in the same `POLL`. -/
def Obligations.GarbageBeforeAFrameIsTolerated : Prop :=
  ∀ (s : State) (ty : U16) (payload garbage : List Byte),
    s.rxbuf = [] → payload.length ≤ 1020 → NoMarker garbage →
    s.accepts (garbage ++ encodeFrame s.cfg.key ty payload) = true →
      ∃ t : State, exec (.poll (garbage ++ encodeFrame s.cfg.key ty payload)) s = .next t ∧
        t.rxbuf = [] ∧ t.results = s.results ++ [.scanned (some ⟨ty, payload⟩)]

/-- Frames waiting in the buffer come out one a `SCAN`, in the order they came in, and what follows them stays (R126, R38,
R163). -/
def Obligations.BufferedFramesComeOutInOrder : Prop :=
  ∀ (s : State) (messages : List Message) (rest : List Byte),
    (∀ m ∈ messages, m.payload.length ≤ 1020) →
    s.rxbuf = (messages.flatMap fun m => encodeFrame s.cfg.key m.messageType m.payload) ++ rest →
    s.pending = List.replicate messages.length (move .scan) →
      core.run messages.length s = .next
        { s with
          rxbuf := rest
          pending := []
          results := s.results ++ messages.map fun m => .scanned (some m) }

/-- Hazard R165, an inference the spec marks as its own: a frame whose clear region is all zeros is accepted, for every body
length from 2 to 1024, as a message of type 0 with an empty payload. -/
def Obligations.ZeroRegionIsAccepted : Prop :=
  ∀ (s : State) (n : Nat) (rest : List Byte), 2 ≤ n → n ≤ 1024 →
    s.rxbuf = [0xAB, 0xCD, BitVec.ofNat 8 n, BitVec.ofNat 8 (n / 256)] ++
      obf s.cfg.key (List.replicate (n + 2) 0x00) ++ [0xDC, 0xBA] ++ rest →
      exec .scan s = .next { s with rxbuf := rest, results := s.results ++ [.scanned (some ⟨0, []⟩)] }

/-- Hazard R162, an inference the spec marks as its own: behind a marker whose length field is at most 1024, everything that
arrives is held back, frames or not, until `N + 8` bytes have accumulated. -/
def Obligations.FalseMarkerHoldsBackWhatArrives : Prop :=
  ∀ (s : State) (lo hi : Byte) (r chunk : List Byte),
    s.rxbuf = [0xAB, 0xCD, lo, hi] ++ r → leNat lo hi ≤ 1024 →
    s.rxbuf.length + chunk.length < leNat lo hi + 8 → s.accepts chunk = true →
      ∃ t : State, exec (.poll chunk) s = .next t ∧ t.rxbuf = s.rxbuf ++ chunk ∧
        t.results = s.results ++ [.scanned none]

/-- A frame with one byte of its masked region altered is never returned: it is removed whole and gives nothing (derived from
R70 and R122; the removal is decision D8, log 17). -/
def Obligations.OneAlteredRegionByteIsRejected : Prop :=
  ∀ (s : State) (ty : U16) (payload head after rest : List Byte) (x y : Byte),
    payload.length ≤ 1020 → encodeFrame s.cfg.key ty payload = head ++ [x] ++ after →
    4 ≤ head.length → 2 ≤ after.length → x ≠ y → s.rxbuf = head ++ [y] ++ after ++ rest →
      exec .scan s = .next { s with rxbuf := rest, results := s.results ++ [.scanned none] }

/-! ## The whole machine -/

/-- The six operations of the encoder leave the buffer, the counter and the parameters alone and add one result; repeated,
they give the same result again (R36). -/
def Obligations.EncoderOperationsLeaveTheBlockAlone : Prop :=
  ∀ (i : Instr) (s t : State), isPure i = true → exec i s = .next t →
    ∃ r : Result, t = { s with results := s.results ++ [r] } ∧
      exec i t = .next { s with results := s.results ++ [r, r] }

/-- No operation reads a result handed over earlier or the moves still to come: nothing is latched (R10, R20, R147). With any
other log and any other queue the same operation has the same effect and the same result. -/
def Obligations.EarlierResultsAreNeverRead : Prop :=
  ∀ (i : Instr) (s t : State), exec i s = .next t →
    ∃ r : Result, t.results = s.results ++ [r] ∧ t.pending = s.pending ∧
      ∀ (log : List Result) (moves : List HostMove),
        exec i { s with results := log, pending := moves } = .next { t with results := log ++ [r], pending := moves }

/-- Every step keeps what a state of a run satisfies: parameters R3 allows, a buffer within its capacity (R111), a counter
within its width (R14). -/
def Obligations.StepKeepsWellFormed : Prop :=
  ∀ s t : State, s.wf = true → step s = .next t → t.wf = true

/-- No step changes a parameter, takes back a result or touches more of the host's queue than its next move (R15 to R18,
R161; the queue and the log are logs 4 and 5). -/
def Obligations.StepKeepsTheParameters : Prop :=
  ∀ s t : State, step s = .next t →
    t.cfg = s.cfg ∧ s.results <+: t.results ∧ t.pending = s.pending.tail

/-- The buffer is the received stream less what was discarded or consumed (R13, R38, R171): after any number of steps its
bytes are received bytes in their order; with the unbounded capacity it is an end piece of the stream. -/
def Obligations.BufferIsAnEndPieceOfTheStream : Prop :=
  ∀ (n : Nat) (s t : State), core.run n s = .next t →
    t.rxbuf.Sublist (s.rxbuf ++ (s.pending.take n).flatMap offeredByMove) ∧
    (s.cfg.rxbufCap = none → t.rxbuf <:+ s.rxbuf ++ (s.pending.take n).flatMap offeredByMove)

/-- `RX_TOTAL` counts the bytes pushed and nothing else (R14, R148): with unbounded capacity and counter, and no reset, after
any number of steps it has grown by their number; bytes that `SCAN` discards are not subtracted. -/
def Obligations.RxTotalCountsEveryByteReceived : Prop :=
  ∀ (n : Nat) (s t : State), s.cfg.rxbufCap = none → s.cfg.rxcntW = none →
    HostMove.reset ∉ s.pending.take n → core.run n s = .next t →
      t.rxTotal = s.rxTotal + ((s.pending.take n).flatMap offeredByMove).length
end

