-- ==== Sys2Proof/Laws/Buffer.lean ====
section
/-! SUPPORT. The buffer operations: what `Find2` finds (R115), and that every operation keeps the buffer within its capacity
and the counter within its width (R111, R14). -/

namespace Sys2Proof.Machine

/-- `Find2` answers the least offset of the pair, and nothing where there is none (R4). -/
theorem find2_spec (b0 b1 : Byte) (s : List Byte) :
    match find2 b0 b1 s with
    | none => ∀ i, ¬ (s[i]? = some b0 ∧ s[i + 1]? = some b1)
    | some k => (s[k]? = some b0 ∧ s[k + 1]? = some b1) ∧ ∀ j, j < k → ¬ (s[j]? = some b0 ∧ s[j + 1]? = some b1) := by
  induction s using find2.induct b0 b1 with
  | case1 => simp [find2]
  | case2 x => simp [find2]
  | case3 x y rest h => simp [find2, h]
  | case4 x y rest h ih =>
    simp only [find2, h, if_false]
    have h0 : ¬ ((x :: y :: rest)[0]? = some b0 ∧ (x :: y :: rest)[0 + 1]? = some b1) := by simpa using h
    cases hf : find2 b0 b1 (y :: rest) with
    | none =>
      rw [hf] at ih
      simp only [Option.map_none]
      intro i
      cases i with
      | zero => exact h0
      | succ i => simpa using ih i
    | some k =>
      rw [hf] at ih
      simp only [Option.map_some]
      refine ⟨by simpa using ih.1, fun j hj => ?_⟩
      cases j with
      | zero => exact h0
      | succ j => simpa using ih.2 j (by omega)

theorem lowByte_HDR : lowByte HDR = 0xAB := by decide
theorem highByte_HDR : highByte HDR = 0xCD := by decide
theorem lowByte_TAIL : lowByte TAIL = 0xDC := by decide
theorem highByte_TAIL : highByte TAIL = 0xBA := by decide

/-- The search of step 3. -/
abbrev findMarker (s : List Byte) : Option Nat := find2 (lowByte HDR) (highByte HDR) s

theorem findMarker_spec (s : List Byte) :
    match findMarker s with
    | none => NoMarker s
    | some k => LeftmostMarker s k := by
  have h := find2_spec (lowByte HDR) (highByte HDR) s
  rw [lowByte_HDR, highByte_HDR] at h
  rw [findMarker, lowByte_HDR, highByte_HDR]
  split <;> rename_i heq <;> rw [heq] at h <;> exact h

theorem LeftmostMarker.unique {s : List Byte} {k k' : Nat} (h : LeftmostMarker s k) (h' : LeftmostMarker s k') :
    k = k' := by
  rcases Nat.lt_trichotomy k k' with hlt | heq | hgt
  · exact absurd h.1 (h'.2 _ hlt)
  · exact heq
  · exact absurd h'.1 (h.2 _ hgt)

theorem findMarker_eq_some {s : List Byte} {k : Nat} (h : LeftmostMarker s k) : findMarker s = some k := by
  have hs := findMarker_spec s
  split at hs <;> rename_i heq
  · exact absurd h.1 (hs k)
  · rw [heq, LeftmostMarker.unique hs h]

theorem findMarker_eq_none {s : List Byte} (h : NoMarker s) : findMarker s = none := by
  have hs := findMarker_spec s
  split at hs <;> rename_i heq
  · exact heq
  · exact absurd hs.1 (h _)

theorem noMarker_of_findMarker {s : List Byte} (h : findMarker s = none) : NoMarker s := by
  have hs := findMarker_spec s
  rw [h] at hs
  exact hs

/-- A buffer that begins with the marker has its leftmost marker at 0 (R118). -/
theorem leftmost_zero (r : List Byte) : LeftmostMarker (0xAB :: 0xCD :: r) 0 := by
  simp [LeftmostMarker, MarkerAt]

theorem MarkerAt.lt {s : List Byte} {i : Nat} (h : MarkerAt s i) : i + 1 < s.length :=
  (List.getElem?_eq_some_iff.1 h.2).1

/-- Bytes without the pair, then the pair: the leftmost marker is the pair (R115, R128). -/
theorem leftmost_after {g : List Byte} (h : NoMarker (g ++ [0xAB])) (r : List Byte) :
    LeftmostMarker (g ++ [0xAB, 0xCD] ++ r) g.length := by
  refine ⟨by simp [MarkerAt], fun j hj hm => h j ?_⟩
  obtain ⟨h0, h1⟩ := hm
  have e : g ++ [0xAB, 0xCD] ++ r = (g ++ [0xAB]) ++ 0xCD :: r := by simp
  rw [e] at h0 h1
  rw [List.getElem?_append_left (by simp; omega)] at h0 h1
  exact ⟨h0, h1⟩

/-- A last byte AB does not make a marker by itself (R128). -/
theorem NoMarker.snoc_AB {g : List Byte} (h : NoMarker g) : NoMarker (g ++ [0xAB]) := by
  intro i hm
  have hi := hm.lt
  obtain ⟨h0, h1⟩ := hm
  simp only [List.length_append, List.length_singleton] at hi
  rcases Nat.lt_or_ge (i + 1) g.length with hlt | hge
  · rw [List.getElem?_append_left (by omega)] at h0 h1
    exact h i ⟨h0, h1⟩
  · have : i + 1 = g.length := by omega
    rw [this] at h1
    simp at h1

theorem NoMarker.drop {s : List Byte} (h : NoMarker s) (k : Nat) : NoMarker (s.drop k) := by
  intro i hm
  refine h (k + i) ⟨?_, ?_⟩
  · simpa [List.getElem?_drop] using hm.1
  · have := hm.2
    rwa [List.getElem?_drop, ← Nat.add_assoc] at this

/-- What stands from a marker on. -/
theorem MarkerAt.drop_eq {s : List Byte} {k : Nat} (h : MarkerAt s k) : s.drop k = 0xAB :: 0xCD :: s.drop (k + 2) := by
  have hk := h.lt
  obtain ⟨h0, h1⟩ := h
  rw [List.drop_eq_getElem_cons (by omega), List.drop_eq_getElem_cons (by omega : k + 1 < s.length)]
  rw [List.getElem?_eq_some_iff] at h0 h1
  rw [h0.2, h1.2]

/-! Operand ranges, capacity and counter. -/

theorem payloadInRange_iff (p : List Byte) : payloadInRange p = true ↔ p.length ≤ 1020 := decide_eq_true_iff

theorem bodyInRange_iff (m : List Byte) : bodyInRange m = true ↔ 4 ≤ m.length := decide_eq_true_iff

theorem config_wf_iff (c : Config) : c.wf = true ↔ ∀ cap, c.rxbufCap = some cap → 1032 ≤ cap := by
  unfold Config.wf
  split
  · simp_all
  · rename_i cap h
    rw [h]
    exact decide_eq_true_iff.trans ⟨fun hc _ he => Option.some.inj he ▸ hc, fun hc => hc cap rfl⟩

theorem state_wf_iff (s : State) :
    s.wf = true ↔ s.cfg.wf = true ∧ Memory.wf s.cfg s.rxbuf = true ∧ counterInRange s.cfg s.rxTotal = true := by
  simp [State.wf, and_assoc]

theorem Memory.wf_of_length_le {cfg : Config} {buf buf' : List Byte} (h : Memory.wf cfg buf = true)
    (hle : buf'.length ≤ buf.length) : Memory.wf cfg buf' = true := by
  unfold Memory.wf at *
  split <;> simp_all
  omega

theorem Memory.wf_nil (cfg : Config) : Memory.wf cfg [] = true := by
  unfold Memory.wf; split <;> simp

theorem Memory.wf_dropPrefix {cfg : Config} {buf : List Byte} (h : Memory.wf cfg buf = true) (k : Nat) :
    Memory.wf cfg (dropPrefix buf k) = true :=
  Memory.wf_of_length_le h (by simp [dropPrefix])

/-- An accepted append keeps the buffer within its capacity (R111). -/
theorem Memory.wf_append {s : State} {chunk : List Byte} (h : s.accepts chunk = true) :
    Memory.wf s.cfg (append s.rxbuf chunk) = true := h

theorem accepts_iff (s : State) (chunk : List Byte) :
    s.accepts chunk = true ↔ ∀ cap, s.cfg.rxbufCap = some cap → s.rxbuf.length + chunk.length ≤ cap := by
  unfold State.accepts Memory.wf append
  cases s.cfg.rxbufCap <;> simp

/-- What fits an empty buffer of any block: a frame (R111). -/
theorem accepts_of_le {s : State} {chunk : List Byte} (hw : s.wf = true) (h : s.rxbuf.length + chunk.length ≤ 1032) :
    s.accepts chunk = true := by
  rw [accepts_iff]
  intro cap hc
  have := (config_wf_iff _).1 ((state_wf_iff s).1 hw).1 cap hc
  omega

theorem counterInRange_wrapCount (cfg : Config) (n : Nat) : counterInRange cfg (wrapCount cfg n) = true := by
  unfold counterInRange wrapCount
  cases cfg.rxcntW
  · rfl
  · simp [Nat.mod_lt]

theorem counterInRange_zero (cfg : Config) : counterInRange cfg 0 = true := by
  unfold counterInRange; split <;> simp

theorem wrapCount_wrapCount_add (cfg : Config) (a b : Nat) :
    wrapCount cfg (wrapCount cfg a + b) = wrapCount cfg (a + b) := by
  unfold wrapCount; split <;> simp

end Sys2Proof.Machine
end

