-- ==== Sys2Proof/Laws/Bytes.lean ====
section
/-! SUPPORT. Little-endian fields (R4, R30): splitting and joining are inverse, and agree with the number the two bytes
stand for. -/

namespace Sys2Proof.Machine

theorem lowByte_eq_ofNat (v : U16) : lowByte v = BitVec.ofNat 8 v.toNat := by
  apply BitVec.eq_of_toNat_eq
  simp [lowByte, BitVec.extractLsb'_toNat]

theorem highByte_eq_ofNat (v : U16) : highByte v = BitVec.ofNat 8 (v.toNat / 256) := by
  apply BitVec.eq_of_toNat_eq
  simp [highByte, BitVec.extractLsb'_toNat, Nat.shiftRight_eq_div_pow]

theorem leNat_lt (lo hi : Byte) : leNat lo hi < 65536 := by
  have := lo.isLt; have := hi.isLt; simp only [leNat]; omega

/-- Joining two bytes gives the number they stand for (R4). -/
theorem toNat_join (lo hi : Byte) : (hi ++ lo : U16).toNat = leNat lo hi := by
  have := lo.isLt
  rw [BitVec.toNat_append, Nat.shiftLeft_eq, leNat, Nat.or_comm, Nat.mul_comm hi.toNat]
  rw [Nat.or_comm, ← Nat.two_pow_add_eq_or_of_lt this]; omega

theorem leNat_split (v : U16) : leNat (lowByte v) (highByte v) = v.toNat := by
  have := v.isLt
  rw [leNat, lowByte_eq_ofNat, highByte_eq_ofNat]; simp; omega

theorem join_split (v : U16) : (highByte v ++ lowByte v : U16) = v :=
  BitVec.eq_of_toNat_eq (by rw [toNat_join, leNat_split])

theorem leNat_ofNat {n : Nat} (h : n < 65536) : leNat (BitVec.ofNat 8 n) (BitVec.ofNat 8 (n / 256)) = n := by
  simp [leNat]; omega

theorem le16_length (v : U16) : (le16 v).length = 2 := rfl

theorem le16_eq_ofNat (v : U16) : le16 v = [BitVec.ofNat 8 v.toNat, BitVec.ofNat 8 (v.toNat / 256)] := by
  rw [le16, lowByte_eq_ofNat, highByte_eq_ofNat]

theorem le16_ofNat {n : Nat} (h : n < 65536) :
    le16 (BitVec.ofNat 16 n) = [BitVec.ofNat 8 n, BitVec.ofNat 8 (n / 256)] := by
  rw [le16_eq_ofNat, BitVec.toNat_ofNat, Nat.mod_eq_of_lt h]

/-- The field at offset `i`, where both its bytes are there. -/
theorem u16le_eq {s : List Byte} {i : Nat} {lo hi : Byte} (h0 : s[i]? = some lo) (h1 : s[i + 1]? = some hi) :
    u16le s i = hi ++ lo := by
  simp [u16le, byteAt, List.getD, h0, h1]

theorem u16le_toNat {s : List Byte} {i : Nat} {lo hi : Byte} (h0 : s[i]? = some lo) (h1 : s[i + 1]? = some hi) :
    (u16le s i).toNat = leNat lo hi := by
  rw [u16le_eq h0 h1, toNat_join]

/-- Reading back a field that `LE16` wrote, wherever it stands. -/
theorem u16le_le16 (front back : List Byte) (v : U16) : u16le (front ++ le16 v ++ back) front.length = v := by
  have h0 : (front ++ le16 v ++ back)[front.length]? = some (lowByte v) := by simp [le16]
  have h1 : (front ++ le16 v ++ back)[front.length + 1]? = some (highByte v) := by simp [le16]
  rw [u16le_eq h0 h1, join_split]

end Sys2Proof.Machine
end

