-- ==== Sys2Proof/Laws/Checksum.lean ====
section
/-! SUPPORT. The checksum (R70): it is linear and one-to-one in the register, and byte by byte. -/

namespace Sys2Proof.Machine

theorem crc16_nil : crc16 [] = CRC_INIT := rfl

/-- The register runs on over a concatenation. -/
theorem crc16_append (a b : List Byte) : crc16 (a ++ b) = b.foldl crcByte (crc16 a) := by
  simp [crc16]

theorem crcRounds_add (m n : Nat) (c : U16) : crcRounds (m + n) c = crcRounds n (crcRounds m c) := by
  induction m generalizing c with
  | zero => simp [crcRounds]
  | succ m ih => rw [Nat.succ_add]; exact ih _

theorem crcRounds_eq_iterate (n : Nat) (c : U16) : crcRounds n c = crcRound^[n] c := by
  induction n generalizing c with
  | zero => rfl
  | succ n ih => exact ih _

/-- The round that undoes a round: the polynomial has its bit 0 set, so bit 0 tells whether it was XOR-ed in. -/
theorem crcRound_injective : Function.Injective crcRound := by
  intro a b h
  have hb : ∀ i, i < 16 → (crcRound a).getLsbD i = (crcRound b).getLsbD i := fun i _ => by rw [h]
  have h0 := hb 0 (by decide)
  have htop : topBit a = topBit b := by
    unfold crcRound at h0
    have p0 : CRC_POLY.getLsbD 0 = true := by decide
    have z0 : ∀ v : U16, (v <<< 1).getLsbD 0 = false := fun v => by simp
    cases ha : topBit a <;> cases hc : topBit b <;>
      simp only [ha, hc, if_true, if_false, BitVec.getLsbD_xor, p0, z0, Bool.false_xor, Bool.false_eq_true,
        Bool.true_eq_false] at h0 <;> rfl
  have hs : a <<< 1 = b <<< 1 := by
    unfold crcRound at h
    rw [htop] at h
    split at h
    · exact (BitVec.xor_left_inj _).1 h
    · exact h
  apply BitVec.eq_of_getLsbD_eq
  intro i hi
  rcases Nat.lt_or_ge i 15 with hlt | hge
  · have := congrArg (fun v : U16 => v.getLsbD (i + 1)) hs
    simpa only [BitVec.getLsbD_shiftLeft, show i + 1 < 16 by omega, decide_true, Bool.true_and,
      show ¬ (i + 1 < 1) by omega, decide_false, Bool.not_false, Nat.add_sub_cancel] using this
  · have : i = 15 := by omega
    subst this
    exact htop

theorem crcRounds_injective (n : Nat) : Function.Injective (crcRounds n) := by
  induction n with
  | zero => exact fun _ _ h => h
  | succ n ih => exact fun _ _ h => crcRound_injective (ih h)

theorem crcByte_injective_register (b : Byte) : Function.Injective (crcByte · b) := fun _ _ h =>
  (BitVec.xor_left_inj _).1 (crcRounds_injective 8 h)

theorem zeroExtend_shift_injective : Function.Injective fun b : Byte => (b.zeroExtend 16 <<< 8 : U16) := by
  intro a b h
  apply BitVec.eq_of_getLsbD_eq
  intro i hi
  have := congrArg (fun v : U16 => v.getLsbD (i + 8)) h
  simpa [BitVec.getLsbD_shiftLeft, BitVec.getLsbD_setWidth, show i + 8 < 16 by omega, show i < 16 by omega] using this

theorem crcByte_injective_byte (c : U16) : Function.Injective (crcByte c) := fun _ _ h =>
  zeroExtend_shift_injective ((BitVec.xor_right_inj _).1 (crcRounds_injective 8 h))

/-- From different registers the same bytes lead to different registers. -/
theorem foldl_crcByte_injective (data : List Byte) : Function.Injective (data.foldl crcByte) := by
  induction data with
  | nil => exact fun _ _ h => h
  | cons b data ih => exact fun _ _ h => crcByte_injective_register b (ih h)

/-- Zero bytes keep a zero register at zero (R165). -/
theorem crcByte_zero : crcByte 0 0 = 0 := by decide

theorem foldl_crcByte_zeros (n : Nat) : (List.replicate n (0 : Byte)).foldl crcByte 0 = 0 := by
  induction n with
  | zero => rfl
  | succ n ih => rw [List.replicate_succ, List.foldl_cons, crcByte_zero, ih]

/-- A register whose high byte is clear only shifts for eight rounds. -/
theorem crcRounds_lowByte (b : Byte) : crcRounds 8 (b.zeroExtend 16) = b.zeroExtend 16 <<< 8 := by
  revert b; decide +kernel

/-- A round commutes with XOR: the checksum is linear in the register. -/
theorem crcRound_xor (a b : U16) : crcRound (a ^^^ b) = crcRound a ^^^ crcRound b := by
  have z : CRC_POLY ^^^ CRC_POLY = 0 := by decide
  unfold crcRound topBit
  rw [BitVec.getLsbD_xor, BitVec.shiftLeft_xor_distrib]
  cases a.getLsbD 15 <;> cases b.getLsbD 15 <;> simp
  · ac_rfl
  · ac_rfl
  · rw [show a <<< 1 ^^^ CRC_POLY ^^^ (b <<< 1 ^^^ CRC_POLY) = (a <<< 1 ^^^ b <<< 1) ^^^ (CRC_POLY ^^^ CRC_POLY) by ac_rfl,
      z]
    simp

theorem crcGood_iff (data : List Byte) (e : U16) : crcGood data e = true ↔ crc16 data = e := by
  simp [crcGood]

end Sys2Proof.Machine
end

