-- ==== Sys2Proof/Laws/PerInstr.lean ====
section
/-! SUPPORT. Per instruction: the transaction of an instruction decodes to it, and no other transaction does (R60, R61). -/

namespace Sys2Proof.Laws.RoundTrip

/-- The transaction of `i` decodes to `i`, and every transaction that decodes to `i` is that one. -/
def Statement (i : Instr) : Prop := decode (encode i) = .ok i ∧ ∀ t, decode t = .ok i → t = encode i

/-- What a transaction that decodes must be: an assigned code, and the operands its operation takes. -/
theorem decode_ok {t : Transaction} {i : Instr} (h : decode t = .ok i) :
    ∃ op, decodeCode t.code = some op ∧ decodeOperands op t.operands = some i := by
  unfold decode at h
  split at h
  · cases h
  · rename_i op hc
    split at h
    · cases h
    · rename_i j ho
      exact ⟨op, hc, by rw [ho]; exact congrArg some (Except.ok.inj h)⟩

/-- A transaction with an assigned code and the operands of its operation decodes. -/
theorem decode_of {code : Byte} {operands : List Operand} {op : Opcode} {i : Instr}
    (hc : decodeCode code = some op) (ho : decodeOperands op operands = some i) : decode ⟨code, operands⟩ = .ok i := by
  simp only [decode, hc, ho]

/-- The code of each operation is the only one (opcode_table.json). -/
theorem code_of_opcode (code : Byte) :
    (decodeCode code = some .crc16 → code = 0x01) ∧ (decodeCode code = some .crcchk → code = 0x02) ∧
    (decodeCode code = some .obf → code = 0x03) ∧ (decodeCode code = some .deobf → code = 0x04) ∧
    (decodeCode code = some .encode → code = 0x05) ∧ (decodeCode code = some .decodeBody → code = 0x06) ∧
    (decodeCode code = some .rxPush → code = 0x07) ∧ (decodeCode code = some .scan → code = 0x08) ∧
    (decodeCode code = some .poll → code = 0x09) := by
  revert code; decide +kernel

/-- The instruction an operation and its operands give, and the operands it took: one case per operation. -/
theorem encode_of_operands {op : Opcode} {operands : List Operand} {i : Instr}
    (h : decodeOperands op operands = some i) (code : Byte) (hc : decodeCode code = some op) :
    (⟨code, operands⟩ : Transaction) = encode i := by
  obtain ⟨c1, c2, c3, c4, c5, c6, c7, c8, c9⟩ := code_of_opcode code
  cases op <;> simp only [decodeOperands] at h <;> split at h <;> cases h
  · rw [c1 hc]; rfl
  · rw [c2 hc]; rfl
  · rw [c3 hc]; rfl
  · rw [c4 hc]; rfl
  · rw [c5 hc]; rfl
  · rw [c6 hc]; rfl
  · rw [c7 hc]; rfl
  · rw [c8 hc]; rfl
  · rw [c9 hc]; rfl

theorem only_encode {i : Instr} (t : Transaction) (h : decode t = .ok i) : t = encode i := by
  obtain ⟨op, hc, ho⟩ := decode_ok h
  exact encode_of_operands ho t.code hc

theorem crc16 (data : List Byte) : Statement (.crc16 data) :=
  ⟨decode_of (op := .crc16) (by decide) rfl, only_encode⟩
theorem crcchk (data : List Byte) (expected : U16) : Statement (.crcchk data expected) :=
  ⟨decode_of (op := .crcchk) (by decide) rfl, only_encode⟩
theorem obf (data : List Byte) : Statement (.obf data) :=
  ⟨decode_of (op := .obf) (by decide) rfl, only_encode⟩
theorem deobf (data : List Byte) : Statement (.deobf data) :=
  ⟨decode_of (op := .deobf) (by decide) rfl, only_encode⟩
theorem encode (messageType : U16) (payload : List Byte) : Statement (.encode messageType payload) :=
  ⟨decode_of (op := .encode) (by decide) rfl, only_encode⟩
theorem decodeBody (masked : List Byte) : Statement (.decodeBody masked) :=
  ⟨decode_of (op := .decodeBody) (by decide) rfl, only_encode⟩
theorem rxPush (chunk : List Byte) : Statement (.rxPush chunk) :=
  ⟨decode_of (op := .rxPush) (by decide) rfl, only_encode⟩
theorem scan : Statement .scan :=
  ⟨decode_of (op := .scan) (by decide) rfl, only_encode⟩
theorem poll (chunk : List Byte) : Statement (.poll chunk) :=
  ⟨decode_of (op := .poll) (by decide) rfl, only_encode⟩

end Sys2Proof.Laws.RoundTrip
end

