-- ==== Sys2Proof/Laws/Obfuscation.lean ====
section
/-! SUPPORT. The mask (R80): length, bytes, concatenation, and undoing it, from any key index. -/

namespace Sys2Proof.Machine

variable (key : Vector Byte 16)

theorem obfFrom_length (i : Nat) (s : List Byte) : (obfFrom key i s).length = s.length := by
  induction s generalizing i with
  | nil => rfl
  | cons b s ih => simp [obfFrom, ih]

@[simp] theorem obf_length (s : List Byte) : (obf key s).length = s.length := obfFrom_length key 0 s

theorem obfFrom_getElem? (i j : Nat) (s : List Byte) :
    (obfFrom key i s)[j]? = s[j]?.map (· ^^^ keyByte key (i + j)) := by
  induction s generalizing i j with
  | nil => simp [obfFrom]
  | cons b s ih =>
    cases j with
    | zero => simp [obfFrom]
    | succ j => simp [obfFrom, ih, Nat.add_assoc, Nat.add_comm 1 j]

/-- Byte `j` of a masked sequence (R80). -/
theorem obf_getElem? (j : Nat) (s : List Byte) : (obf key s)[j]? = s[j]?.map (· ^^^ keyByte key j) := by
  rw [obf, obfFrom_getElem?, Nat.zero_add]

theorem obfFrom_append (i : Nat) (a b : List Byte) :
    obfFrom key i (a ++ b) = obfFrom key i a ++ obfFrom key (i + a.length) b := by
  induction a generalizing i with
  | nil => rfl
  | cons x a ih => simp [obfFrom, ih, Nat.add_assoc, Nat.add_comm 1]

/-- The mask undoes itself from the same index. -/
theorem obfFrom_obfFrom (i : Nat) (s : List Byte) : obfFrom key i (obfFrom key i s) = s := by
  induction s generalizing i with
  | nil => rfl
  | cons b s ih => simp [obfFrom, ih]

theorem deobf_obf (s : List Byte) : deobf key (obf key s) = s := obfFrom_obfFrom key 0 s

/-- The key index is taken modulo 16. -/
theorem keyByte_add_multiple {a : Nat} (h : a % 16 = 0) (i : Nat) : keyByte key (a + i) = keyByte key i := by
  have : (a + i) % 16 = i % 16 := by omega
  simp [keyByte, this]

/-- Prefixes are preserved, from any index. -/
theorem obf_take (s : List Byte) (k : Nat) : (obf key s).take k = obf key (s.take k) := by
  apply List.ext_getElem?
  intro j
  rw [List.getElem?_take, obf_getElem?, obf_getElem?, List.getElem?_take]
  split <;> simp

/-- Slices from a multiple of 16 are preserved. -/
theorem obf_drop (s : List Byte) {a : Nat} (h : a % 16 = 0) : (obf key s).drop a = obf key (s.drop a) := by
  apply List.ext_getElem?
  intro j
  rw [List.getElem?_drop, obf_getElem?, obf_getElem?, List.getElem?_drop, keyByte_add_multiple key h]

end Sys2Proof.Machine
end

