-- ==== Sys2Proof/Laws/Frame.lean ====
section
/-! SUPPORT. The frame (R50, R53): its parts, their sizes, and what is read back from them. -/

namespace Sys2Proof.Machine

/-- The body in the clear, byte by byte (R53). -/
theorem clearBody_eq (ty : U16) (p : List Byte) (h : p.length ≤ 1020) :
    clearBody ty p =
      lowByte ty :: highByte ty :: BitVec.ofNat 8 p.length :: BitVec.ofNat 8 (p.length / 256) :: (p ++ pad p) := by
  rw [clearBody, le16_ofNat (by omega)]; simp [le16]

theorem pad_length (p : List Byte) : (pad p).length = p.length % 2 := by
  unfold pad; split <;> simp <;> omega

theorem clearBody_length (ty : U16) (p : List Byte) : (clearBody ty p).length = 4 + p.length + p.length % 2 := by
  simp [clearBody, le16_length, pad_length]; omega

/-- A frame in its four parts (R50): the region is the masked body and checksum. -/
theorem frameOf_eq (key : Vector Byte 16) (body : List Byte) (h : body.length < 65536) :
    frameOf key body = 0xAB :: 0xCD :: BitVec.ofNat 8 body.length :: BitVec.ofNat 8 (body.length / 256) ::
      (obf key (body ++ le16 (crc16 body)) ++ [0xDC, 0xBA]) := by
  have h1 : le16 HDR = [0xAB, 0xCD] := by decide
  have h2 : le16 TAIL = [0xDC, 0xBA] := by decide
  rw [frameOf, le16_ofNat h, h1, h2]; simp

theorem frameOf_length (key : Vector Byte 16) (body : List Byte) : (frameOf key body).length = body.length + 8 := by
  simp [frameOf, le16_length]; omega

theorem encodeFrame_length (key : Vector Byte 16) (ty : U16) (p : List Byte) :
    (encodeFrame key ty p).length = 12 + p.length + p.length % 2 := by
  rw [encodeFrame, frameOf_length, clearBody_length]; omega

/-- The frame of a message, with anything behind it, in the parts the scanner reads (R56). -/
theorem encodeFrame_parts (key : Vector Byte 16) (ty : U16) (p : List Byte) (h : p.length ≤ 1020) (rest : List Byte) :
    ∃ lo hi, leNat lo hi = (clearBody ty p).length ∧
      encodeFrame key ty p ++ rest = 0xAB :: 0xCD :: lo :: hi ::
        (obf key (clearBody ty p ++ le16 (crc16 (clearBody ty p))) ++ 0xDC :: 0xBA :: rest) := by
  have hl := clearBody_length ty p
  refine ⟨BitVec.ofNat 8 (clearBody ty p).length, BitVec.ofNat 8 ((clearBody ty p).length / 256),
    leNat_ofNat (by omega), ?_⟩
  rw [encodeFrame, frameOf_eq _ _ (by omega)]; simp

/-- Parsing needs the header and the payload only: what stands behind is ignored (R101, R102). -/
theorem parseRegion_eq {b0 b1 b2 b3 : Byte} (tail : List Byte) (n : Nat) :
    parseRegion (b0 :: b1 :: b2 :: b3 :: tail) n =
      ⟨b1 ++ b0, tail.take (min (leNat b2 b3) (n - 4))⟩ := by
  have h0 : u16le (b0 :: b1 :: b2 :: b3 :: tail) 0 = b1 ++ b0 := u16le_eq (by simp) (by simp)
  have h2 : (u16le (b0 :: b1 :: b2 :: b3 :: tail) 2).toNat = leNat b2 b3 := u16le_toNat (by simp) (by simp)
  simp only [parseRegion, h0, h2, slice]
  simp

theorem parseBody_eq_parseRegion (plain : List Byte) : parseBody plain = parseRegion plain plain.length := rfl

/-- The body of a message, with anything behind it, parses to the message (R101, R102). -/
theorem parseRegion_clearBody (ty : U16) (p back : List Byte) (h : p.length ≤ 1020) :
    parseRegion (clearBody ty p ++ back) (clearBody ty p).length = ⟨ty, p⟩ := by
  have hl := clearBody_length ty p
  rw [hl, clearBody_eq ty p h]
  simp only [List.cons_append]
  rw [parseRegion_eq, join_split, leNat_ofNat (by omega)]
  have : min p.length (4 + p.length + p.length % 2 - 4) = p.length := by omega
  rw [this]; simp

end Sys2Proof.Machine
end

