-- ==== Sys2Proof/Laws/Scanner.lean ====
section
/-! SUPPORT. One equation per branch of a `SCAN` (R112 to R123), in terms of the bytes of the buffer. -/

namespace Sys2Proof.Machine

variable (key : Vector Byte 16)

/-- Step 2 (R113). -/
theorem scanPass_short {buf : List Byte} (h : buf.length < 8) : scanPass key buf = ⟨.waitMin, buf, none⟩ := by
  simp [scanPass, MIN_FRAME, h]

/-- Step 3 without a marker (R114). -/
theorem scanPass_noMarker {buf : List Byte} (h : 8 ≤ buf.length) (hm : NoMarker buf) :
    scanPass key buf =
      if buf.getLast? = some 0xAB then ⟨.noMarkerKeep, [0xAB], none⟩ else ⟨.noMarkerClear, [], none⟩ := by
  have hne : buf ≠ [] := by intro h0; simp [h0] at h
  have hb : memRead1 buf (buf.length - 1) = buf.getLast hne := by
    simp [memRead1, byteAt, List.getD, List.getLast_eq_getElem, show buf.length - 1 < buf.length by omega]
  have hd : buf.drop (buf.length - 1) = [buf.getLast hne] := List.drop_length_sub_one hne
  have hf : find2 (lowByte HDR) (highByte HDR) buf = none := findMarker_eq_none hm
  rw [lowByte_HDR] at hf
  simp only [scanPass, MIN_FRAME, show ¬ buf.length < 8 by omega, if_false, hf, hb, lowByte_HDR, dropPrefix, hd,
    List.drop_length, List.getLast?_eq_some_getLast hne, Option.some.injEq]
  by_cases hl : buf.getLast hne = 0xAB
  · rw [if_pos hl, if_pos hl, hl]
  · rw [if_neg hl, if_neg hl]

/-- Steps 3 and 4 with a marker (R115, R116): the pass goes on from the leftmost one. -/
theorem scanPass_marker {buf : List Byte} {k : Nat} (h : 8 ≤ buf.length) (hk : LeftmostMarker buf k) :
    scanPass key buf = scanFrame key (buf.drop k) := by
  have hf : find2 (lowByte HDR) (highByte HDR) buf = some k := findMarker_eq_some hk
  simp only [scanPass, MIN_FRAME, show ¬ buf.length < 8 by omega, if_false, hf, dropPrefix]

/-- Step 5 (R117). -/
theorem scanFrame_waitLen {buf : List Byte} (h : buf.length < 4) : scanFrame key buf = ⟨.waitLen, buf, none⟩ := by
  simp [scanFrame, h]

/-- Step 6 (R119). -/
theorem scanFrame_oversize {a b lo hi : Byte} (r : List Byte) (h : 1024 < leNat lo hi) :
    scanFrame key (a :: b :: lo :: hi :: r) = ⟨.oversize, lo :: hi :: r, none⟩ := by
  have hn : (memRead2 (a :: b :: lo :: hi :: r) 2).toNat = leNat lo hi := u16le_toNat (by simp) (by simp)
  simp [scanFrame, hn, MAX_BODY, h, dropPrefix]

/-- Step 7 (R120). -/
theorem scanFrame_waitFrame {a b lo hi : Byte} {r : List Byte} (h : leNat lo hi ≤ 1024)
    (hl : r.length + 4 < leNat lo hi + 8) :
    scanFrame key (a :: b :: lo :: hi :: r) = ⟨.waitFrame, a :: b :: lo :: hi :: r, none⟩ := by
  have hn : (memRead2 (a :: b :: lo :: hi :: r) 2).toNat = leNat lo hi := u16le_toNat (by simp) (by simp)
  simp only [scanFrame, hn, MAX_BODY, List.length_cons]
  rw [if_neg (by omega), if_neg (by omega), if_pos (by omega)]

/-- Step 8 on a whole frame (R121): the tail decides between step 9 and the loss of the marker. -/
theorem scanFrame_whole {a b lo hi t0 t1 : Byte} {region rest : List Byte} (h : leNat lo hi ≤ 1024)
    (hr : region.length = leNat lo hi + 2) :
    scanFrame key (a :: b :: lo :: hi :: (region ++ t0 :: t1 :: rest)) =
      if t0 = 0xDC ∧ t1 = 0xBA then
        scanRegion key (a :: b :: lo :: hi :: (region ++ t0 :: t1 :: rest)) (leNat lo hi)
      else ⟨.badTail, lo :: hi :: (region ++ t0 :: t1 :: rest), none⟩ := by
  have hn : (memRead2 (a :: b :: lo :: hi :: (region ++ t0 :: t1 :: rest)) 2).toNat = leNat lo hi :=
    u16le_toNat (by simp) (by simp)
  have g0 : memRead1 (a :: b :: lo :: hi :: (region ++ t0 :: t1 :: rest)) (leNat lo hi + 6) = t0 := by
    have : leNat lo hi + 6 = region.length + 4 := by omega
    simp [memRead1, byteAt, List.getD, this]
  have g1 : memRead1 (a :: b :: lo :: hi :: (region ++ t0 :: t1 :: rest)) (leNat lo hi + 7) = t1 := by
    have : leNat lo hi + 7 = (region.length + 1) + 4 := by omega
    simp [memRead1, byteAt, List.getD, this]
  simp only [scanFrame, hn, MAX_BODY, g0, g1, lowByte_TAIL, highByte_TAIL, dropPrefix, List.length_cons,
    List.length_append]
  rw [if_neg (by omega), if_neg (by omega), if_neg (by omega)]
  rfl

/-- Step 9 (R122, R123): the frame goes; the region decides what is returned. -/
theorem scanRegion_eq {a b lo hi t0 t1 : Byte} {region rest : List Byte} {n : Nat} (hr : region.length = n + 2) :
    scanRegion key (a :: b :: lo :: hi :: (region ++ t0 :: t1 :: rest)) n =
      if n < 2 then ⟨.shortRegion, rest, none⟩
      else if crc16 ((obf key region).take n) = u16le (obf key region) n then
        ⟨.message, rest, some (parseRegion (obf key region) n)⟩
      else ⟨.badChecksum, rest, none⟩ := by
  have hs : slice (a :: b :: lo :: hi :: (region ++ t0 :: t1 :: rest)) 4 (4 + n + 2) = region := by
    simp [slice, show 4 + n + 2 - 4 = region.length by omega]
  have hd : dropPrefix (a :: b :: lo :: hi :: (region ++ t0 :: t1 :: rest)) (n + 8) = rest := by
    simp [dropPrefix, show n + 8 = (region.length + 2) + 4 by omega]
  have ht : slice (obf key region) 0 n = (obf key region).take n := by simp [slice]
  simp only [scanRegion, hs, hd, deobf, ht, obf_length, hr, crcGood_iff, show n + 2 < 4 ↔ n < 2 by omega]

/-- A pass over a buffer that begins with the marker and holds 8 bytes or more goes straight to step 5 (R118). -/
theorem scanPass_front (r : List Byte) (h : 6 ≤ r.length) :
    scanPass key (0xAB :: 0xCD :: r) = scanFrame key (0xAB :: 0xCD :: r) := by
  rw [scanPass_marker key (by simp; omega) (leftmost_zero r)]; rfl

/-- Bytes without a marker before the first one are dropped (R115, R116). -/
theorem scanPass_garbage {g : List Byte} (r : List Byte) (hg : NoMarker (g ++ [0xAB]))
    (h : 8 ≤ (g ++ [0xAB, 0xCD] ++ r).length) :
    scanPass key (g ++ [0xAB, 0xCD] ++ r) = scanFrame key (0xAB :: 0xCD :: r) := by
  rw [scanPass_marker key h (leftmost_after hg r), List.append_assoc, List.drop_left]; rfl

/-- A whole frame in front: step 8 and step 9 in one equation (R121 to R123). -/
theorem scanPass_whole {lo hi t0 t1 : Byte} {region rest : List Byte} (h : leNat lo hi ≤ 1024)
    (hr : region.length = leNat lo hi + 2) :
    scanPass key ([0xAB, 0xCD, lo, hi] ++ region ++ [t0, t1] ++ rest) =
      if t0 = 0xDC ∧ t1 = 0xBA then
        if leNat lo hi < 2 then ⟨.shortRegion, rest, none⟩
        else if crc16 ((obf key region).take (leNat lo hi)) = u16le (obf key region) (leNat lo hi) then
          ⟨.message, rest, some (parseRegion (obf key region) (leNat lo hi))⟩
        else ⟨.badChecksum, rest, none⟩
      else ⟨.badTail, [lo, hi] ++ region ++ [t0, t1] ++ rest, none⟩ := by
  have e : [0xAB, 0xCD, lo, hi] ++ region ++ [t0, t1] ++ rest =
      0xAB :: 0xCD :: lo :: hi :: (region ++ t0 :: t1 :: rest) := by simp
  rw [e, scanPass_front key _ (by simp; omega), scanFrame_whole key h hr, scanRegion_eq key hr]
  simp

/-- A scan never lengthens the buffer and changes no byte of it: an end piece is left (R13, R129). -/
theorem scanFrame_rest_suffix (buf : List Byte) : (scanFrame key buf).rest <:+ buf := by
  unfold scanFrame scanRegion dropPrefix
  dsimp only
  repeat' split
  all_goals first | exact List.suffix_refl _ | exact List.drop_suffix _ _

theorem scanPass_rest_suffix (buf : List Byte) : (scanPass key buf).rest <:+ buf := by
  unfold scanPass dropPrefix
  repeat' split
  all_goals first
    | exact List.suffix_refl _
    | exact List.drop_suffix _ _
    | exact (scanFrame_rest_suffix key _).trans (List.drop_suffix _ _)

/-- A buffer of 4 bytes or more from the marker on, in its parts: too short for the frame it announces, or holding it. -/
theorem frame_split (lo hi : Byte) (r : List Byte) :
    r.length + 4 < leNat lo hi + 8 ∨
      ∃ region t0 t1 rest, r = region ++ t0 :: t1 :: rest ∧ region.length = leNat lo hi + 2 := by
  rcases Nat.lt_or_ge (r.length + 4) (leNat lo hi + 8) with h | h
  · exact .inl h
  · refine .inr ⟨r.take (leNat lo hi + 2), r[leNat lo hi + 2], r[leNat lo hi + 3], r.drop (leNat lo hi + 4), ?_, ?_⟩
    · rw [← List.drop_eq_getElem_cons, ← List.drop_eq_getElem_cons, List.take_append_drop]
    · rw [List.length_take]; omega

end Sys2Proof.Machine
end

