-- ==== Sys2Proof/Laws/State.lean ====
section
/-! SUPPORT. One lemma per field and update of State: proofs read fields by simp and unfold no record update. -/

namespace Sys2Proof.Machine

section Deliver
variable (s : State) (r : Result)
@[simp] theorem State.deliver_cfg : (s.deliver r).cfg = s.cfg := rfl
@[simp] theorem State.deliver_rxbuf : (s.deliver r).rxbuf = s.rxbuf := rfl
@[simp] theorem State.deliver_rxTotal : (s.deliver r).rxTotal = s.rxTotal := rfl
@[simp] theorem State.deliver_pending : (s.deliver r).pending = s.pending := rfl
@[simp] theorem State.deliver_results : (s.deliver r).results = s.results ++ [r] := rfl
end Deliver

section Push
variable (s : State) (chunk : List Byte)
@[simp] theorem State.push_cfg : (s.push chunk).cfg = s.cfg := rfl
@[simp] theorem State.push_rxbuf : (s.push chunk).rxbuf = s.rxbuf ++ chunk := rfl
@[simp] theorem State.push_rxTotal : (s.push chunk).rxTotal = wrapCount s.cfg (s.rxTotal + chunk.length) := rfl
@[simp] theorem State.push_pending : (s.push chunk).pending = s.pending := rfl
@[simp] theorem State.push_results : (s.push chunk).results = s.results := rfl
end Push

section WithRxbuf
variable (s : State) (buf : List Byte)
@[simp] theorem State.withRxbuf_cfg : (s.withRxbuf buf).cfg = s.cfg := rfl
@[simp] theorem State.withRxbuf_rxbuf : (s.withRxbuf buf).rxbuf = buf := rfl
@[simp] theorem State.withRxbuf_rxTotal : (s.withRxbuf buf).rxTotal = s.rxTotal := rfl
@[simp] theorem State.withRxbuf_pending : (s.withRxbuf buf).pending = s.pending := rfl
@[simp] theorem State.withRxbuf_results : (s.withRxbuf buf).results = s.results := rfl
end WithRxbuf

section WithPending
variable (s : State) (moves : List HostMove)
@[simp] theorem State.withPending_cfg : (s.withPending moves).cfg = s.cfg := rfl
@[simp] theorem State.withPending_rxbuf : (s.withPending moves).rxbuf = s.rxbuf := rfl
@[simp] theorem State.withPending_rxTotal : (s.withPending moves).rxTotal = s.rxTotal := rfl
@[simp] theorem State.withPending_pending : (s.withPending moves).pending = moves := rfl
@[simp] theorem State.withPending_results : (s.withPending moves).results = s.results := rfl
end WithPending

section ResetEvent
variable (s : State)
@[simp] theorem State.resetEvent_cfg : s.resetEvent.cfg = s.cfg := rfl
@[simp] theorem State.resetEvent_rxbuf : s.resetEvent.rxbuf = [] := rfl
@[simp] theorem State.resetEvent_rxTotal : s.resetEvent.rxTotal = 0 := rfl
@[simp] theorem State.resetEvent_pending : s.resetEvent.pending = s.pending := rfl
@[simp] theorem State.resetEvent_results : s.resetEvent.results = s.results := rfl
end ResetEvent

section AfterScan
variable (s : State)
@[simp] theorem State.afterScan_cfg : s.afterScan.cfg = s.cfg := rfl
@[simp] theorem State.afterScan_rxbuf : s.afterScan.rxbuf = (scanPass s.cfg.key s.rxbuf).rest := rfl
@[simp] theorem State.afterScan_rxTotal : s.afterScan.rxTotal = s.rxTotal := rfl
@[simp] theorem State.afterScan_pending : s.afterScan.pending = s.pending := rfl
@[simp] theorem State.afterScan_results :
    s.afterScan.results = s.results ++ [.scanned (scanPass s.cfg.key s.rxbuf).found] := rfl
end AfterScan

/-- `SCAN` in one equation: the pass decides what is left and what is returned, nothing else moves (R112). -/
theorem State.afterScan_eq (s : State) :
    s.afterScan = { s with rxbuf := (scanPass s.cfg.key s.rxbuf).rest,
                           results := s.results ++ [.scanned (scanPass s.cfg.key s.rxbuf).found] } := rfl

end Sys2Proof.Machine
end

