-- ==== Sys2Proof/Laws/Exec.lean ====
section
/-! SUPPORT. What an operation, a move and a step can do, said once (R36, R110, R112, R125, R142, R160). -/

namespace Sys2Proof.Machine

theorem exec_scan (s : State) : exec .scan s = .next s.afterScan := rfl

theorem exec_poll (chunk : List Byte) (s : State) :
    exec (.poll chunk) s = .next (if s.accepts chunk then (s.push chunk).afterScan else s.afterScan) := rfl

theorem exec_rxPush (chunk : List Byte) (s : State) :
    exec (.rxPush chunk) s =
      if s.accepts chunk then .next ((s.push chunk).deliver .nothing) else .refused .bufferFull := rfl

/-- If an operation answers a next state, it is the encoder's and one result was added, or it is one of the scanner's three
effects. -/
theorem exec_next {i : Instr} {s t : State} (h : exec i s = .next t) :
    (isPure i = true ∧ ∃ r, t = s.deliver r) ∨
    (∃ chunk, i = .rxPush chunk ∧ s.accepts chunk = true ∧ t = (s.push chunk).deliver .nothing) ∨
    (i = .scan ∧ t = s.afterScan) ∨
    (∃ chunk, i = .poll chunk ∧ s.accepts chunk = true ∧ t = (s.push chunk).afterScan) ∨
    (∃ chunk, i = .poll chunk ∧ s.accepts chunk = false ∧ t = s.afterScan) := by
  cases i with
  | crc16 data => exact .inl ⟨rfl, _, (Host.Outcome.next.inj h).symm⟩
  | crcchk data e => exact .inl ⟨rfl, _, (Host.Outcome.next.inj h).symm⟩
  | obf data => exact .inl ⟨rfl, _, (Host.Outcome.next.inj h).symm⟩
  | deobf data => exact .inl ⟨rfl, _, (Host.Outcome.next.inj h).symm⟩
  | encode ty p =>
    simp only [exec, execEncode] at h
    split at h
    · exact .inl ⟨rfl, _, (Host.Outcome.next.inj h).symm⟩
    · cases h
  | decodeBody m =>
    simp only [exec, execDecodeBody] at h
    split at h
    · exact .inl ⟨rfl, _, (Host.Outcome.next.inj h).symm⟩
    · cases h
  | rxPush chunk =>
    rw [exec_rxPush] at h
    split at h
    · exact .inr (.inl ⟨chunk, rfl, ‹_›, (Host.Outcome.next.inj h).symm⟩)
    · cases h
  | scan => exact .inr (.inr (.inl ⟨rfl, (Host.Outcome.next.inj h).symm⟩))
  | poll chunk =>
    rw [exec_poll] at h
    have h := Host.Outcome.next.inj h
    by_cases ha : s.accepts chunk = true
    · rw [if_pos ha] at h
      exact .inr (.inr (.inr (.inl ⟨chunk, rfl, ha, h.symm⟩)))
    · rw [if_neg ha] at h
      exact .inr (.inr (.inr (.inr ⟨chunk, rfl, by simpa using ha, h.symm⟩)))

/-- No operation touches the parameters or the host's queue, and each adds one result. -/
theorem exec_next_frame {i : Instr} {s t : State} (h : exec i s = .next t) :
    t.cfg = s.cfg ∧ t.pending = s.pending ∧ ∃ r, t.results = s.results ++ [r] := by
  rcases exec_next h with ⟨-, r, rfl⟩ | ⟨c, -, -, rfl⟩ | ⟨-, rfl⟩ | ⟨c, -, -, rfl⟩ | ⟨c, -, -, rfl⟩ <;>
    exact ⟨rfl, rfl, _, rfl⟩

/-- If a step answers a next state, nothing was pending, or the host reset the block, or an operation ran. -/
theorem step_next {s t : State} (h : step s = .next t) :
    (s.pending = [] ∧ t = s) ∨
    (∃ moves, s.pending = .reset :: moves ∧ t = (s.withPending moves).resetEvent) ∨
    (∃ tr moves i, s.pending = .issue tr :: moves ∧ decode tr = .ok i ∧ exec i (s.withPending moves) = .next t) := by
  simp only [step, advance] at h
  split at h
  · exact .inl ⟨‹_›, (Host.Outcome.next.inj h).symm⟩
  · rename_i m moves hp
    cases m with
    | reset => exact .inr (.inl ⟨moves, hp, (Host.Outcome.next.inj h).symm⟩)
    | issue tr =>
      simp only [perform, issue] at h
      split at h
      · exact .inr (.inr ⟨tr, moves, _, hp, ‹_›, h⟩)
      · cases h

/-- A step on an encoded instruction runs it. -/
theorem step_move {s : State} {i : Instr} {moves : List HostMove} (h : s.pending = move i :: moves) :
    step s = exec i (s.withPending moves) := by
  have hd : decode (encode i) = .ok i := by
    cases i with
    | crc16 data => exact (Laws.RoundTrip.crc16 data).1
    | crcchk data e => exact (Laws.RoundTrip.crcchk data e).1
    | obf data => exact (Laws.RoundTrip.obf data).1
    | deobf data => exact (Laws.RoundTrip.deobf data).1
    | encode ty p => exact (Laws.RoundTrip.encode ty p).1
    | decodeBody m => exact (Laws.RoundTrip.decodeBody m).1
    | rxPush c => exact (Laws.RoundTrip.rxPush c).1
    | scan => exact Laws.RoundTrip.scan.1
    | poll c => exact (Laws.RoundTrip.poll c).1
  simp only [step, advance, h, move, perform, issue, hd]

/-- A buffer an operation leaves is within the capacity when the one before was (R111). -/
theorem afterScan_wf {s : State} (h : Memory.wf s.cfg s.rxbuf = true) :
    Memory.wf s.afterScan.cfg s.afterScan.rxbuf = true :=
  Memory.wf_of_length_le h (scanPass_rest_suffix _ _).length_le

end Sys2Proof.Machine
end

