-- ==== Sys2Proof/Laws/Run.lean ====
section
/-! SUPPORT. Runs of the host's moves (R172): one step after another, and what holds of a step carried over a run. -/

namespace Sys2Proof.Machine

/-- For any machine: a run of one step more is a step and then the run. -/
theorem machine_run_succ (M : Host.Core) {n : Nat} {s t : M.State} (h : M.step s = .next t) :
    M.run (n + 1) s = M.run n t := by
  simp only [Host.Core.run, h]

/-- For any machine: if a run of one step more answers a state, the step did and the rest of the run did. -/
theorem machine_run_next (M : Host.Core) {n : Nat} {s u : M.State} (h : M.run (n + 1) s = .next u) :
    ∃ t, M.step s = .next t ∧ M.run n t = .next u := by
  rw [Host.Core.run] at h
  split at h
  · exact ⟨_, ‹_›, h⟩
  · cases h
  · cases h

theorem run_zero (s : State) : core.run 0 s = .next s := rfl

theorem run_succ_of_step {n : Nat} {s t : State} (h : step s = .next t) : core.run (n + 1) s = core.run n t :=
  machine_run_succ core h

theorem run_succ_next {n : Nat} {s u : State} (h : core.run (n + 1) s = .next u) :
    ∃ t, step s = .next t ∧ core.run n t = .next u :=
  machine_run_next core h

/-- A property that every step keeps holds along every run. -/
theorem run_induction {P : State → Prop} (hstep : ∀ s t, P s → step s = .next t → P t) (n : Nat) :
    ∀ s t, P s → core.run n s = .next t → P t := by
  induction n with
  | zero => intro s t hp h; cases h; exact hp
  | succ n ih =>
    intro s u hp h
    obtain ⟨t, h1, h2⟩ := run_succ_next h
    exact ih t u (hstep s t hp h1) h2

/-- A run whose next move is an instruction runs it, when it has a step. -/
theorem run_move {n : Nat} {s t : State} {i : Instr} {moves : List HostMove} (hp : s.pending = move i :: moves)
    (he : exec i (s.withPending moves) = .next t) : core.run (n + 1) s = core.run n t :=
  run_succ_of_step ((step_move hp).trans he)

end Sys2Proof.Machine
end

