-- ==== Sys2Proof/Tests/Slice0.lean ====
section
/-! SUPPORT. Tests, each against a value of spec/95_test_vectors.md or a worked example of a rule, and one witness for each
statement with hypotheses. -/

namespace Sys2Proof.Tests
open Sys2Proof Sys2Proof.Machine

/-! ## Helpers -/

/-- A reset block (default key) with something in the buffer. -/
def withBuf (buf : List Byte) : State := { State.reset with rxbuf := buf }

/-- A reset block with a finite capacity and a 4-bit counter. -/
def tight (buf : List Byte) : State :=
  { State.reset with cfg := { Config.default with rxbufCap := some 1032, rxcntW := some 4 }, rxbuf := buf }

def results (o : Host.Outcome State Fault Refusal) : Option (List Result) :=
  match o with
  | .next s => some s.results
  | .fault _ => none
  | .refused _ => none

def buffer (o : Host.Outcome State Fault Refusal) : Option (List Byte) :=
  match o with
  | .next s => some s.rxbuf
  | .fault _ => none
  | .refused _ => none

def total (o : Host.Outcome State Fault Refusal) : Option Nat :=
  match o with
  | .next s => some s.rxTotal
  | .fault _ => none
  | .refused _ => none

def refusal (o : Host.Outcome State Fault Refusal) : Option Refusal :=
  match o with
  | .next _ => none
  | .fault _ => none
  | .refused r => some r

/-- Vector V-E1: ENCODE(0x1234, []), default key. -/
def frameE1 : List Byte := [0xAB, 0xCD, 0x04, 0x00, 0x22, 0x7E, 0x14, 0xE6, 0x35, 0x5A, 0xDC, 0xBA]

/-- Vector V-E4: ENCODE(0x0001, [41 42 43]), default key. -/
def frameE4 : List Byte :=
  [0xAB, 0xCD, 0x08, 0x00, 0x17, 0x6C, 0x17, 0xE6, 0x6F, 0xD3, 0x4E, 0x40, 0x68, 0x8F, 0xDC, 0xBA]

def messageE4 : Message := ⟨0x0001, [0x41, 0x42, 0x43]⟩

/-! ## WellFormed: an ill-formed term for each check (V-E8, V-D7) -/

theorem test_wellFormed_payload_too_long : (Instr.encode 0 (List.replicate 1021 0)).wellFormed = false := by
  decide +kernel

theorem test_wellFormed_payload_longest : (Instr.encode 0 (List.replicate 1020 0)).wellFormed = true := by
  decide +kernel

theorem test_wellFormed_body_too_short : (Instr.decodeBody [0x22, 0x7E, 0x14]).wellFormed = false := by decide

/-! ## Decoding: the command word of each operation, from R60, with operands -/

theorem test_decode_crc16 : decode ⟨0b00000001, [.bytes [0x80]]⟩ = .ok (.crc16 [0x80]) := by decide +kernel
theorem test_decode_crcchk : decode ⟨0b00000010, [.bytes [0x80], .u16 0x9188]⟩ = .ok (.crcchk [0x80] 0x9188) := by
  decide +kernel
theorem test_decode_obf : decode ⟨0b00000011, [.bytes [0xBD, 0xA1]]⟩ = .ok (.obf [0xBD, 0xA1]) := by decide +kernel
theorem test_decode_deobf : decode ⟨0b00000100, [.bytes [0xAB]]⟩ = .ok (.deobf [0xAB]) := by decide +kernel
theorem test_decode_encode : decode ⟨0b00000101, [.u16 0x1234, .bytes [0xAA]]⟩ = .ok (.encode 0x1234 [0xAA]) := by
  decide +kernel
theorem test_decode_decodeBody : decode ⟨0b00000110, [.bytes [1, 2, 3, 4]]⟩ = .ok (.decodeBody [1, 2, 3, 4]) := by
  decide +kernel
theorem test_decode_rxPush : decode ⟨0b00000111, [.bytes [0xAB]]⟩ = .ok (.rxPush [0xAB]) := by decide +kernel
theorem test_decode_scan : decode ⟨0b00001000, []⟩ = .ok .scan := by decide +kernel
theorem test_decode_poll : decode ⟨0b00001001, [.bytes []]⟩ = .ok (.poll []) := by decide +kernel

/-- R60: codes not in the table are refused; log 2: so are operands that are not the code's. -/
theorem test_decode_refusals :
    decode ⟨0x00, []⟩ = .error (.unassignedCode 0x00) ∧ decode ⟨0x0A, [.bytes []]⟩ = .error (.unassignedCode 0x0A) ∧
    decode ⟨0x08, [.bytes []]⟩ = .error (.operandMismatch 0x08) := by decide +kernel

/-- No two rows of the operation table match one code. -/
theorem test_table_rows_do_not_overlap :
    opcodeTable.Pairwise fun a b => (a.mask &&& b.mask &&& (a.pattern ^^^ b.pattern)) ≠ 0 := by decide +kernel

/-- Every table row runs as the first instruction after reset. -/
theorem test_every_row_runs_after_reset :
    ((List.range 9).all fun k => (results (step (State.reset.withFetchWord 8 (k + 1)))).isSome) = true := by
  decide +kernel

/-! ## CRC16, CRCCHK -/

/-- V-C7. -/
theorem test_crc16_check_string :
    results (exec (.crc16 [0x31, 0x32, 0x33, 0x34, 0x35, 0x36, 0x37, 0x38, 0x39]) State.reset) =
      some [.checksum 0x31C3] := by decide +kernel

/-- V-C14: the top bit is set in the first round. -/
theorem test_crc16_top_bit_first_round : results (exec (.crc16 [0xC1]) State.reset) = some [.checksum 0xC96D] := by
  decide +kernel

/-- R72, worked example. -/
theorem test_crcchk_good :
    results (exec (.crcchk [0x34, 0x12, 0x00, 0x00] 0xCB1B) State.reset) = some [.verdict true] := by decide +kernel

/-- Section 2.1: CRCCHK([], 1) = false. -/
theorem test_crcchk_bad : results (exec (.crcchk [] 0x0001) State.reset) = some [.verdict false] := by decide +kernel

/-! ## OBF, DEOBF -/

/-- V-O3: index 16 uses KEY[0] again. -/
theorem test_obf_key_repeats :
    results (exec (.obf (List.replicate 18 0x00)) State.reset) =
      some [.bytes [0x16, 0x6C, 0x14, 0xE6, 0x2E, 0x91, 0x0D, 0x40, 0x21, 0x35, 0xD5, 0x40, 0x13, 0x03, 0xE9, 0x80,
        0x16, 0x6C]] := by decide +kernel

/-- V-O6. -/
theorem test_obf_marker_pair : results (exec (.obf [0xBD, 0xA1]) State.reset) = some [.bytes [0xAB, 0xCD]] := by
  decide +kernel

/-- R82, worked example. -/
theorem test_deobf_region :
    results (exec (.deobf [0x22, 0x7E, 0x14, 0xE6, 0x35, 0x5A]) State.reset) =
      some [.bytes [0x34, 0x12, 0x00, 0x00, 0x1B, 0xCB]] := by decide +kernel

/-! ## ENCODE -/

/-- V-E4: an odd payload is padded. -/
theorem test_encode_odd_payload :
    results (exec (.encode 0x0001 [0x41, 0x42, 0x43]) State.reset) = some [.bytes frameE4] := by decide +kernel

/-- V-E5: the key index runs on from the body into the checksum. -/
theorem test_encode_key_runs_into_checksum :
    results (exec (.encode 0xFFFF [1, 2, 3, 4, 5, 6, 7, 8, 9, 10, 11, 12]) State.reset) =
      some [.bytes [0xAB, 0xCD, 0x10, 0x00, 0xE9, 0x93, 0x18, 0xE6, 0x2F, 0x93, 0x0E, 0x44, 0x24, 0x33, 0xD2, 0x48,
        0x1A, 0x09, 0xE2, 0x8C, 0x03, 0x94, 0xDC, 0xBA]] := by decide +kernel

/-! ## DECODE_BODY -/

/-- V-D3: the pad is dropped. -/
theorem test_decodeBody_drops_pad :
    results (exec (.decodeBody [0x17, 0x6C, 0x17, 0xE6, 0x6F, 0xD3, 0x4E, 0x40]) State.reset) =
      some [.decoded messageE4] := by decide +kernel

/-- V-D4 (as a clear body, all-zero key): declared_len 10, two bytes present. -/
theorem test_parseBody_cut_to_present : parseBody [0x34, 0x12, 0x0A, 0x00, 0xDE, 0xAD] = ⟨0x1234, [0xDE, 0xAD]⟩ := by
  decide +kernel

/-! ## RX_PUSH -/

/-- R110, worked example (second push). -/
theorem test_rxPush_appends :
    buffer (exec (.rxPush [0xCD, 0x04]) { withBuf [0xAB] with rxTotal := 1 }) = some [0xAB, 0xCD, 0x04] ∧
    total (exec (.rxPush [0xCD, 0x04]) { withBuf [0xAB] with rxTotal := 1 }) = some 3 := by decide +kernel

/-- R111 and R14: one byte too many is refused; the last byte that fits is taken, and a 4-bit counter wraps. -/
theorem test_rxPush_capacity_and_wrap :
    refusal (exec (.rxPush [1, 2]) (tight (List.replicate 1031 0))) = some .bufferFull ∧
    total (exec (.rxPush [1]) { tight (List.replicate 1031 0) with rxTotal := 15 }) = some 0 := by decide +kernel

/-! ## SCAN -/

/-- Outcomes that discard: R114 (both), R119, R121, R122 worked examples, V-S9 (N = 1), V-S15. -/
theorem test_scan_discards :
    buffer (exec .scan (withBuf [1, 2, 3, 4, 5, 6, 7, 0xAB])) = some [0xAB] ∧
    buffer (exec .scan (withBuf [1, 2, 3, 4, 5, 6, 7, 8])) = some [] ∧
    buffer (exec .scan (withBuf [0xAB, 0xCD, 0xD0, 0x07, 0x55, 0x55, 0x55, 0x55])) =
      some [0xD0, 0x07, 0x55, 0x55, 0x55, 0x55] ∧
    buffer (exec .scan (withBuf [0xAB, 0xCD, 0x04, 0x00, 0x22, 0x7E, 0x14, 0xE6, 0x35, 0x5A, 0xDC, 0xBB])) =
      some [0x04, 0x00, 0x22, 0x7E, 0x14, 0xE6, 0x35, 0x5A, 0xDC, 0xBB] ∧
    buffer (exec .scan (withBuf [0xAB, 0xCD, 0x04, 0x00, 0x22, 0x7E, 0x14, 0xE6, 0x34, 0x5A, 0xDC, 0xBA])) = some [] ∧
    results (exec .scan (withBuf [0xAB, 0xCD, 0x01, 0x00, 0x61, 0x1C, 0x1A, 0xDC, 0xBA])) = some [.scanned none] ∧
    buffer (exec .scan (withBuf [1, 2, 3, 4, 5, 6, 0xAB, 0xCD])) = some [0xAB, 0xCD] := by decide +kernel

/-- Outcome MESSAGE: V-S3 (garbage), V-S10 (N = 2 and N = 3), V-S11 (odd N), V-S12 (declared_len short of the bytes
present), V-S13 (AB CD inside the region). -/
theorem test_scan_messages :
    results (exec .scan (withBuf ([0x00, 0x11, 0xCD, 0xAB, 0x22] ++ frameE1))) =
      some [.scanned (some ⟨0x1234, []⟩)] ∧
    results (exec .scan (withBuf [0xAB, 0xCD, 0x02, 0x00, 0x22, 0x7E, 0x36, 0x1D, 0xDC, 0xBA])) =
      some [.scanned (some ⟨0x1234, []⟩)] ∧
    results (exec .scan (withBuf [0xAB, 0xCD, 0x03, 0x00, 0x22, 0x7E, 0x1D, 0xBB, 0xC3, 0xDC, 0xBA])) =
      some [.scanned (some ⟨0x1234, []⟩)] ∧
    results (exec .scan (withBuf [0xAB, 0xCD, 0x05, 0x00, 0x22, 0x7E, 0x15, 0xE6, 0x74, 0x39, 0xB2, 0xDC, 0xBA])) =
      some [.scanned (some ⟨0x1234, [0x5A]⟩)] ∧
    results (exec .scan (withBuf [0xAB, 0xCD, 0x08, 0x00, 0x22, 0x7E, 0x15, 0xE6, 0xF0, 0x3C, 0xB3, 0xAF, 0xFF, 0xAA,
      0xDC, 0xBA])) = some [.scanned (some ⟨0x1234, [0xDE]⟩)] ∧
    results (exec .scan (withBuf [0xAB, 0xCD, 0x06, 0x00, 0x22, 0x7E, 0x16, 0xE6, 0xAB, 0xCD, 0x85, 0xBB, 0xDC, 0xBA])) =
      some [.scanned (some ⟨0x1234, [0x85, 0x5C]⟩)] := by decide +kernel

/-! ## POLL -/

/-- V-S6, second POLL: the retained AB becomes the first byte of a marker. -/
theorem test_poll_split_marker :
    results (exec (.poll [0xCD, 0x04, 0x00, 0x22, 0x7E, 0x14, 0xE6, 0x35, 0x5A, 0xDC, 0xBA]) (withBuf [0xAB])) =
      some [.scanned (some ⟨0x1234, []⟩)] := by decide +kernel

/-- R125: the push is refused (1032 bytes held), the scan still runs and frees the buffer. -/
theorem test_poll_refused_push_still_scans :
    buffer (exec (.poll [0x01]) (tight (List.replicate 1032 0))) = some [] ∧
    total (exec (.poll [0x01]) (tight (List.replicate 1032 0))) = some 0 := by decide +kernel

/-! ## Witnesses: a state and operands that meet all hypotheses of each statement, for each clause -/

theorem witness_StepRunsTheDecodedInstruction :
    (State.reset.withFetchWord 8 8).pending = [.issue ⟨0x08, []⟩] ∧ decode ⟨0x08, []⟩ = .ok .scan := by decide +kernel

theorem witness_ResetEventAndIdleStep :
    ({ withBuf frameE1 with pending := [.reset] } : State).pending = [.reset] ∧ (withBuf frameE1).pending = [] := by
  decide +kernel

theorem witness_UnassignedCodesAreRefused :
    (({ State.reset with pending := [.issue ⟨0x00, []⟩] } : State).pending = [.issue ⟨0x00, []⟩] ∧
      (0x00 : Byte).toNat = 0) ∧
    (({ State.reset with pending := [.issue ⟨0x0A, []⟩] } : State).pending = [.issue ⟨0x0A, []⟩] ∧
      9 < (0x0A : Byte).toNat) ∧ 1 ≤ (0x01 : Byte).toNat ∧ (0x09 : Byte).toNat ≤ 9 := by decide +kernel

theorem witness_OperationsRefusedExactlyAsListed :
    refusal (exec (.encode 0 (List.replicate 1021 0)) State.reset) = some .payloadTooLong ∧
    refusal (exec (.encode 0 (List.replicate 1020 0)) State.reset) = none ∧
    refusal (exec (.decodeBody [1, 2, 3]) State.reset) = some .bodyTooShort ∧
    refusal (exec (.decodeBody [1, 2, 3, 4]) State.reset) = none ∧
    refusal (exec (.rxPush [1]) (tight (List.replicate 1032 0))) = some .bufferFull ∧
    refusal (exec (.rxPush [1]) (tight (List.replicate 1031 0))) = none := by decide +kernel

theorem witness_Crc16DetectsOneChangedByte : (0x00 : Byte) ≠ 0x01 := by decide

theorem witness_ObfMasksByteByByte : 17 < (List.replicate 18 (0x00 : Byte)).length ∧ 17 < 18 ∧ 16 % 16 = 0 := by decide

theorem witness_ObfIsAnInvolutionOnSequences : ([1, 2] : List Byte).length = ([3, 4] : List Byte).length := by decide

/-- Also the witness of `EncodedFrameSizesAndMarkers`, `DecodeBodyRecoversTheEncodedMessage`: the longest payload. -/
theorem witness_EncodeReturnsTheFrame : (List.replicate 1020 (0xFF : Byte)).length ≤ 1020 := by decide +kernel

theorem witness_EncodeIsOneToOne :
    ([0xAA] : List Byte).length ≤ 1020 ∧
    encodeFrame suggestedKey 0x1234 [0xAA] = encodeFrame suggestedKey 0x1234 [0xAA] := by decide +kernel

theorem witness_DecodeBodyReturnsTheMessage :
    0 < ([0xAA, 0x00] : List Byte).length ∧
    results (exec (.decodeBody [0x22, 0x7E, 0x15, 0xE6, 0x84, 0x91]) State.reset) =
      some [.decoded ⟨0x1234, [0xAA]⟩] := by decide +kernel

/-- The push that just fits, with an unbounded and with a 4-bit counter. -/
theorem witness_RxPushAppendsAndCounts :
    (tight (List.replicate 1031 0)).cfg.rxbufCap = some 1032 ∧
    (tight (List.replicate 1031 0)).rxbuf.length + ([1] : List Byte).length ≤ 1032 ∧
    (tight (List.replicate 1031 0)).cfg.rxcntW = some 4 ∧ State.reset.cfg.rxbufCap = none ∧
    State.reset.cfg.rxcntW = none := by decide +kernel

theorem witness_RxPushInPiecesIsTheSame :
    buffer (exec (.rxPush ([0xAB] ++ [0xCD, 0x04])) State.reset) = some [0xAB, 0xCD, 0x04] := by decide +kernel

theorem witness_FullBufferIsAlwaysRelieved : 1032 ≤ (withBuf (List.replicate 1032 0)).rxbuf.length := by decide +kernel

theorem witness_ScanWaitsUnderEightBytes : (withBuf [0xAB, 0xCD, 0xD0, 0x07, 5, 6, 7]).rxbuf.length < 8 := by decide

theorem witness_ScanWithoutMarkerKeepsATrailingAB :
    (8 ≤ (withBuf [1, 2, 3, 4, 5, 6, 7, 0xAB]).rxbuf.length ∧ NoMarker [1, 2, 3, 4, 5, 6, 7, 0xAB] ∧
      (withBuf [1, 2, 3, 4, 5, 6, 7, 0xAB]).rxbuf.getLast? = some 0xAB) ∧
    (8 ≤ (withBuf [1, 2, 3, 4, 5, 6, 7, 8]).rxbuf.length ∧ NoMarker [1, 2, 3, 4, 5, 6, 7, 8] ∧
      (withBuf [1, 2, 3, 4, 5, 6, 7, 8]).rxbuf.getLast? ≠ some 0xAB) :=
  ⟨⟨by decide, noMarker_of_findMarker (by decide), by decide⟩, ⟨by decide, noMarker_of_findMarker (by decide), by decide⟩⟩

/-- The three clauses at their boundaries: 8 bytes, 3 bytes, 4 and 7 bytes from the marker on. -/
theorem witness_ScanDropsWhatPrecedesTheLeftmostMarker :
    NoMarker ([1, 2, 3, 4, 5, 6] ++ [0xAB]) ∧ 8 ≤ ([1, 2, 3, 4, 5, 6] ++ [0xAB, 0xCD] ++ [] : List Byte).length ∧
    6 ≤ ([4, 0, 1, 2, 3, 4] : List Byte).length ∧ ([4] : List Byte).length < 2 ∧
    (([0x01, 0x04] : List Byte) = 0x01 :: 0x04 :: [] ∧ ([0x01, 0x04] : List Byte).length < 6 ∧ 1024 < leNat 0x01 0x04) ∧
    ([0x00, 0x04, 1, 2, 3] : List Byte).length < 6 ∧ leNat 0x00 0x04 = 1024 :=
  ⟨noMarker_of_findMarker (by decide), by decide⟩

theorem witness_ScanDropsOnlyTheMarkerOfAnOversizeFrame :
    ((withBuf ([0xAB, 0xCD, 0x01, 0x04] ++ [0, 0, 0, 0])).rxbuf = [0xAB, 0xCD, 0x01, 0x04] ++ [0, 0, 0, 0] ∧
      4 ≤ ([0, 0, 0, 0] : List Byte).length ∧ 1024 < leNat 0x01 0x04) ∧
    (1024 < leNat 0xD0 0x07 ∧ NoMarker ([0xD0, 0x07] ++ [0x55, 0x55]) ∧ ([] : List Byte).length ≤ 1020 ∧
      (withBuf ([0xAB, 0xCD, 0xD0, 0x07] ++ [0x55, 0x55] ++ frameE1 ++ [])).rxbuf =
        [0xAB, 0xCD, 0xD0, 0x07] ++ [0x55, 0x55] ++ encodeFrame suggestedKey 0x1234 [] ++ []) :=
  ⟨by decide, by decide, noMarker_of_findMarker (by decide), by decide, by decide +kernel⟩

theorem witness_ScanWaitsForTheWholeFrame :
    leNat 0x04 0x00 ≤ 1024 ∧ (withBuf ([0xAB, 0xCD, 0x04, 0x00] ++ [1, 2, 3, 4, 5, 6, 0xDC])).rxbuf.length <
      leNat 0x04 0x00 + 8 := by decide

theorem witness_ScanDropsOnlyTheMarkerOnABadTail :
    leNat 0x04 0x00 ≤ 1024 ∧ ([1, 2, 3, 4, 5, 6] : List Byte).length = leNat 0x04 0x00 + 2 ∧
    ¬ ((0xDC : Byte) = 0xDC ∧ (0xBB : Byte) = 0xBA) ∧ ¬ ((0xDD : Byte) = 0xDC ∧ (0xBA : Byte) = 0xBA) := by decide

/-- The three clauses: N = 1; a checksum off by one bit; N = 2 with a good checksum. -/
theorem witness_ScanRemovesAWholeFrameAndChecksIt :
    (leNat 1 0 < 2 ∧ ([0x61, 0x1C, 0x1A] : List Byte).length = leNat 1 0 + 2) ∧
    ((obf suggestedKey [0x22, 0x7E, 0x14, 0xE6, 0x34, 0x5A])[4]? = some 0x1A ∧
      (obf suggestedKey [0x22, 0x7E, 0x14, 0xE6, 0x34, 0x5A])[5]? = some 0xCB ∧
      (crc16 ((obf suggestedKey [0x22, 0x7E, 0x14, 0xE6, 0x34, 0x5A]).take 4)).toNat ≠ leNat 0x1A 0xCB) ∧
    (obf suggestedKey [0x22, 0x7E, 0x36, 0x1D] = 0x34 :: 0x12 :: 0x22 :: 0xFB :: [] ∧
      (crc16 ((obf suggestedKey [0x22, 0x7E, 0x36, 0x1D]).take 2)).toNat = leNat 0x22 0xFB) := by decide +kernel

theorem witness_ScanOutcomesDiscardAsTabled :
    (scanPass suggestedKey [1, 2, 3]).outcome = .waitMin ∧ (scanPass suggestedKey frameE1).outcome = .message := by
  decide +kernel

theorem witness_WaitingScanKeepsTheMarkerInFront :
    (scanPass suggestedKey [1, 2, 3, 4, 5, 6, 0xAB, 0xCD]).outcome = .waitLen ∧
    (scanPass suggestedKey (1 :: frameE1.take 11)).outcome = .waitFrame := by decide +kernel

theorem witness_RepeatedScansSettle :
    ({ withBuf frameE1 with pending := List.replicate 12 (move .scan) } : State).pending =
      List.replicate (withBuf frameE1).rxbuf.length (move .scan) := by decide +kernel

theorem witness_PollIsPushThenScan :
    buffer (exec (.rxPush [1]) State.reset) = some [1] ∧
    refusal (exec (.rxPush [1]) (tight (List.replicate 1032 0))) = some .bufferFull := by decide +kernel

theorem witness_ScanReturnsTheEncodedMessage :
    ([0x41, 0x42, 0x43] : List Byte).length ≤ 1020 ∧
    (withBuf (frameE4 ++ [0xAB])).rxbuf = encodeFrame suggestedKey 0x0001 [0x41, 0x42, 0x43] ++ [0xAB] := by
  decide +kernel

theorem witness_RoundTripThroughPoll :
    (tight []).wf = true ∧ (tight []).rxbuf = [] ∧ (List.replicate 1020 (0x00 : Byte)).length ≤ 1020 := by decide +kernel

theorem witness_ChunkedDeliveryGivesTheSameMessage :
    State.reset.wf = true ∧ State.reset.rxbuf = [] ∧
    ([[0xAB], [0xCD, 0x04], frameE1.drop 3] : List (List Byte)).flatten = encodeFrame suggestedKey 0x1234 [] ∧
    (∀ c ∈ ([[0xAB], [0xCD, 0x04], frameE1.drop 3] : List (List Byte)), c ≠ []) := by decide +kernel

/-- Garbage that ends in AB and holds CD AB. -/
theorem witness_GarbageBeforeAFrameIsTolerated :
    NoMarker [0x00, 0xCD, 0xAB, 0x22, 0xAB] ∧ State.reset.rxbuf = [] ∧
    State.reset.accepts ([0x00, 0xCD, 0xAB, 0x22, 0xAB] ++ frameE1) = true :=
  ⟨noMarker_of_findMarker (by decide), by decide⟩

theorem witness_BufferedFramesComeOutInOrder :
    (∀ m ∈ [⟨0x1234, []⟩, messageE4], m.payload.length ≤ 1020) ∧
    ({ withBuf (frameE1 ++ frameE4 ++ [7]) with pending := List.replicate 2 (move .scan) } : State).rxbuf =
      ([⟨0x1234, []⟩, messageE4].flatMap fun m => encodeFrame suggestedKey m.messageType m.payload) ++ [7] := by
  decide +kernel

theorem witness_ZeroRegionIsAccepted :
    2 ≤ 6 ∧ 6 ≤ 1024 ∧
    (withBuf [0xAB, 0xCD, 0x06, 0x00, 0x16, 0x6C, 0x14, 0xE6, 0x2E, 0x91, 0x0D, 0x40, 0xDC, 0xBA]).rxbuf =
      [0xAB, 0xCD, BitVec.ofNat 8 6, BitVec.ofNat 8 (6 / 256)] ++
        obf suggestedKey (List.replicate (6 + 2) 0x00) ++ [0xDC, 0xBA] ++ [] := by decide +kernel

/-- Program P4: a complete frame is held back behind a false marker. -/
theorem witness_FalseMarkerHoldsBackWhatArrives :
    leNat 0x10 0x00 ≤ 1024 ∧
    (withBuf [0xAB, 0xCD, 0x10, 0x00]).rxbuf.length + frameE1.length < leNat 0x10 0x00 + 8 ∧
    (withBuf [0xAB, 0xCD, 0x10, 0x00]).accepts frameE1 = true := by decide +kernel

/-- The first and the last byte of the masked region. -/
theorem witness_OneAlteredRegionByteIsRejected :
    (encodeFrame suggestedKey 0x1234 [] = frameE1.take 4 ++ [0x22] ++ frameE1.drop 5 ∧ 4 ≤ (frameE1.take 4).length ∧
      2 ≤ (frameE1.drop 5).length ∧ (0x22 : Byte) ≠ 0x23) ∧
    (encodeFrame suggestedKey 0x1234 [] = frameE1.take 9 ++ [0x5A] ++ frameE1.drop 10 ∧
      2 ≤ (frameE1.drop 10).length ∧ (0x5A : Byte) ≠ 0x00) := by decide +kernel

theorem witness_EncoderOperationsLeaveTheBlockAlone :
    isPure (.encode 0x0001 [0x41, 0x42, 0x43]) = true ∧
    buffer (exec (.encode 0x0001 [0x41, 0x42, 0x43]) (withBuf [9])) = some [9] := by decide +kernel

theorem witness_EarlierResultsAreNeverRead :
    results (exec .scan { withBuf frameE1 with results := [.nothing] }) =
      some [.nothing, .scanned (some ⟨0x1234, []⟩)] := by decide +kernel

/-- Also the witness of `StepKeepsTheParameters`. -/
theorem witness_StepKeepsWellFormed :
    (tight frameE1).wf = true ∧
    (buffer (step { tight frameE1 with pending := [move .scan] })) = some [] := by decide +kernel

/-- Also the witness of `BufferIsAnEndPieceOfTheStream`: a run of two steps that answers a state. -/
theorem witness_RxTotalCountsEveryByteReceived :
    State.reset.cfg.rxbufCap = none ∧ State.reset.cfg.rxcntW = none ∧
    HostMove.reset ∉ ([move (.rxPush [1, 2]), move (.poll [3])] : List HostMove).take 2 ∧
    total (core.run 2 { State.reset with pending := [move (.rxPush [1, 2]), move (.poll [3])] }) = some 3 := by
  decide +kernel

end Sys2Proof.Tests
end

/-! SUPPORT. Proofs of the statements about the state (10_state.md). First what one operation and one step do to the buffer,
the counter, the queue and the log; then the same carried over a run, and the statements. -/

namespace Sys2Proof.Machine

/-! ### The parameters, the log and the queue -/

/-- Settles O48, by the three things a step can be: an idle step, a reset, an operation. -/
theorem stepKeepsTheParameters : Obligations.StepKeepsTheParameters := by
  intro s t h
  rcases step_next h with ⟨hp, rfl⟩ | ⟨moves, hp, rfl⟩ | ⟨tr, moves, i, hp, -, he⟩
  · simp [hp]
  · simp [hp]
  · obtain ⟨hc, hq, r, hr⟩ := exec_next_frame he
    simp [hc, hq, hr, hp]

/-- An encoder operation answers from the parameters alone: in every state with the same ones it hands over the same
result (R36). -/
theorem exec_pure_next {i : Instr} {s t : State} (hi : isPure i = true) (h : exec i s = .next t) :
    ∃ r, t = s.deliver r ∧ ∀ s' : State, s'.cfg = s.cfg → exec i s' = .next (s'.deliver r) := by
  cases i with
  | crc16 data => cases h; exact ⟨_, rfl, fun _ _ => rfl⟩
  | crcchk data expected => cases h; exact ⟨_, rfl, fun _ _ => rfl⟩
  | obf data => cases h; exact ⟨_, rfl, fun _ hc => by rw [← hc]; rfl⟩
  | deobf data => cases h; exact ⟨_, rfl, fun _ hc => by rw [← hc]; rfl⟩
  | encode ty payload =>
    by_cases hp : payloadInRange payload = true
    · simp only [exec, execEncode, if_pos hp] at h ⊢
      cases h; exact ⟨_, rfl, fun _ hc => by rw [hc]⟩
    · simp [exec, execEncode, hp] at h
  | decodeBody masked =>
    by_cases hm : bodyInRange masked = true
    · simp only [exec, execDecodeBody, if_pos hm] at h ⊢
      cases h; exact ⟨_, rfl, fun _ hc => by rw [hc]⟩
    · simp [exec, execDecodeBody, hm] at h
  | rxPush chunk => cases hi
  | scan => cases hi
  | poll chunk => cases hi

/-- Whether a push fits is decided by the capacity and the buffer, whatever the log and the queue hold (R111). -/
theorem accepts_with_log_and_queue (s : State) (log : List Result) (moves : List HostMove) (chunk : List Byte) :
    State.accepts { s with results := log, pending := moves } chunk = s.accepts chunk := rfl

/-- Settles O46: an encoder operation reads the parameters alone, a scanner operation these and the buffer and counter. -/
theorem earlierResultsAreNeverRead : Obligations.EarlierResultsAreNeverRead := by
  intro i s t h
  rcases exec_next h with
    ⟨hi, -⟩ | ⟨chunk, rfl, ha, rfl⟩ | ⟨rfl, rfl⟩ | ⟨chunk, rfl, ha, rfl⟩ | ⟨chunk, rfl, ha, rfl⟩
  · obtain ⟨r, rfl, hr⟩ := exec_pure_next hi h
    exact ⟨r, rfl, rfl, fun _ _ => hr _ rfl⟩
  · refine ⟨.nothing, rfl, rfl, fun _ _ => ?_⟩
    rw [exec_rxPush, accepts_with_log_and_queue, if_pos ha]; rfl
  · exact ⟨_, rfl, rfl, fun _ _ => rfl⟩
  · refine ⟨_, rfl, rfl, fun _ _ => ?_⟩
    rw [exec_poll, accepts_with_log_and_queue, if_pos ha]; rfl
  · refine ⟨_, rfl, rfl, fun _ _ => ?_⟩
    rw [exec_poll, accepts_with_log_and_queue, ha]; rfl

/-! ### `SCAN` on its own -/

/-- A message costs the frame it came in, which has a body of 2 bytes at least (R122, R123). -/
theorem scanFrame_found_length {key : Vector Byte 16} {buf : List Byte} (h : (scanFrame key buf).found ≠ none) :
    (scanFrame key buf).rest.length + 10 ≤ buf.length := by
  match buf with
  | [] | [_] | [_, _] | [_, _, _] => exact absurd (by rw [scanFrame_waitLen key (by simp)]) h
  | a :: b :: lo :: hi :: r =>
    rcases Nat.lt_or_ge 1024 (leNat lo hi) with hbig | hn
    · exact absurd (by rw [scanFrame_oversize key r hbig]) h
    rcases frame_split lo hi r with hshort | ⟨region, t0, t1, rest, rfl, hr⟩
    · exact absurd (by rw [scanFrame_waitFrame key hn hshort]) h
    rw [scanFrame_whole key hn hr, scanRegion_eq key hr] at h ⊢
    by_cases htail : t0 = 0xDC ∧ t1 = 0xBA
    · rw [if_pos htail] at h ⊢
      by_cases hbody : leNat lo hi < 2
      · exact absurd (by rw [if_pos hbody]) h
      · rw [if_neg hbody]
        split <;> simp <;> omega
    · exact absurd (by rw [if_neg htail]) h

/-- The same for a whole pass: what precedes the marker goes as well (R116). -/
theorem scanPass_found_length {key : Vector Byte 16} {buf : List Byte} (h : (scanPass key buf).found ≠ none) :
    (scanPass key buf).rest.length + 10 ≤ buf.length := by
  rcases Nat.lt_or_ge buf.length 8 with hlen | hlen
  · exact absurd (by rw [scanPass_short key hlen]) h
  have hs := findMarker_spec buf
  split at hs
  · rw [scanPass_noMarker key hlen hs] at h
    split at h <;> exact absurd rfl h
  · rename_i k _
    rw [scanPass_marker key hlen hs] at h ⊢
    have := scanFrame_found_length h
    rw [List.length_drop] at this
    omega

/-- Settles O33: the pass leaves an end piece of the buffer, so what it removed stood in front. -/
theorem scanAlwaysCompletesRemovingAPrefix : Obligations.ScanAlwaysCompletesRemovingAPrefix := by
  intro s
  have hrest := List.suffix_iff_eq_drop.1 (scanPass_rest_suffix s.cfg.key s.rxbuf)
  refine ⟨s.rxbuf.length - (scanPass s.cfg.key s.rxbuf).rest.length, (scanPass s.cfg.key s.rxbuf).found, ?_,
    Nat.sub_le _ _, fun hf => ?_⟩
  · rw [exec_scan, State.afterScan_eq, ← hrest]
  · have := scanPass_found_length hf
    omega

/-! ### The buffer and the stream -/

/-- What the claim on the buffer says of a buffer and a stream: its bytes are bytes of the stream in their order, and with
the unbounded capacity, which loses no pushed byte, they are the last ones. -/
def EndPieceOf (cfg : Config) (buf stream : List Byte) : Prop :=
  buf.Sublist stream ∧ (cfg.rxbufCap = none → buf <:+ stream)

theorem EndPieceOf.of_suffix {cfg : Config} {buf stream : List Byte} (h : buf <:+ stream) : EndPieceOf cfg buf stream :=
  ⟨h.sublist, fun _ => h⟩

/-- An end piece of a buffer and further bytes is one of the buffer's own stream and these bytes. -/
theorem EndPieceOf.trans_append {cfg : Config} {buf mid stream more : List Byte}
    (h : EndPieceOf cfg buf (mid ++ more)) (hm : EndPieceOf cfg mid stream) : EndPieceOf cfg buf (stream ++ more) := by
  refine ⟨h.1.trans (hm.1.append_right more), fun hc => (h.2 hc).trans ?_⟩
  obtain ⟨lost, rfl⟩ := hm.2 hc
  exact ⟨lost, (List.append_assoc ..).symm⟩

theorem offeredBy_of_isPure {i : Instr} (h : isPure i = true) : offeredBy i = [] := by
  cases i with
  | rxPush chunk => cases h
  | scan => rfl
  | poll chunk => cases h
  | _ => rfl

theorem accepts_of_unbounded {s : State} (h : s.cfg.rxbufCap = none) (chunk : List Byte) : s.accepts chunk = true :=
  (accepts_iff s chunk).2 fun cap hc => by rw [h] at hc; cases hc

/-- An operation leaves an end piece of the buffer followed by the bytes it offers (R38). A `POLL` whose push is refused
drops the bytes it offers; with the unbounded capacity no push is refused. -/
theorem exec_rxbuf {i : Instr} {s t : State} (h : exec i s = .next t) :
    EndPieceOf s.cfg t.rxbuf (s.rxbuf ++ offeredBy i) := by
  rcases exec_next h with
    ⟨hi, r, rfl⟩ | ⟨chunk, rfl, -, rfl⟩ | ⟨rfl, rfl⟩ | ⟨chunk, rfl, -, rfl⟩ | ⟨chunk, rfl, ha, rfl⟩
  · exact .of_suffix (by simp [offeredBy_of_isPure hi])
  · exact .of_suffix List.suffix_rfl
  · exact .of_suffix (by simpa [offeredBy] using scanPass_rest_suffix s.cfg.key s.rxbuf)
  · exact .of_suffix (scanPass_rest_suffix _ _)
  · refine ⟨(scanPass_rest_suffix _ _).sublist.trans (List.sublist_append_left ..), fun hc => ?_⟩
    rw [accepts_of_unbounded hc] at ha
    cases ha

/-- The bytes the next `n` moves of the host offer to the buffer. -/
abbrev received (n : Nat) (s : State) : List Byte := (s.pending.take n).flatMap offeredByMove

theorem received_one_reset {s : State} {moves : List HostMove} (hp : s.pending = .reset :: moves) :
    received 1 s = [] := by
  simp [received, hp, offeredByMove]

theorem received_one_issue {s : State} {tr : Transaction} {moves : List HostMove} {i : Instr}
    (hp : s.pending = .issue tr :: moves) (hd : decode tr = .ok i) : received 1 s = offeredBy i := by
  simp [received, hp, offeredByMove, hd]

/-- The moves of a run of `n + 1` steps are the first step's and those left to the rest of the run. -/
theorem take_pending_succ {s t : State} (h : step s = .next t) (n : Nat) :
    s.pending.take (n + 1) = s.pending.take 1 ++ t.pending.take n := by
  obtain ⟨-, -, hq⟩ := stepKeepsTheParameters s t h
  rw [hq]
  cases s.pending <;> simp

theorem received_succ {s t : State} (h : step s = .next t) (n : Nat) :
    received (n + 1) s = received 1 s ++ received n t := by
  rw [received, take_pending_succ h, List.flatMap_append]

theorem step_rxbuf {s t : State} (h : step s = .next t) : EndPieceOf s.cfg t.rxbuf (s.rxbuf ++ received 1 s) := by
  rcases step_next h with ⟨hp, rfl⟩ | ⟨moves, hp, rfl⟩ | ⟨tr, moves, i, hp, hd, he⟩
  · exact .of_suffix (by simp [received, hp])
  · exact .of_suffix List.nil_suffix
  · rw [received_one_issue hp hd]
    simpa using exec_rxbuf he

/-- Settles O49, by induction on the number of steps: each step leaves an end piece of the buffer and the bytes of its
move. -/
theorem bufferIsAnEndPieceOfTheStream : Obligations.BufferIsAnEndPieceOfTheStream := by
  intro n
  induction n with
  | zero => intro s t h; cases h; simp
  | succ n ih =>
    intro s u h
    obtain ⟨t, hstep, hrun⟩ := run_succ_next h
    obtain ⟨hcfg, -, -⟩ := stepKeepsTheParameters s t hstep
    have hrest : EndPieceOf s.cfg u.rxbuf (t.rxbuf ++ received n t) := hcfg ▸ ih t u hrun
    have hall : EndPieceOf s.cfg u.rxbuf (s.rxbuf ++ received (n + 1) s) := by
      rw [received_succ hstep, ← List.append_assoc]
      exact hrest.trans_append (step_rxbuf hstep)
    exact hall

/-! ### The counter -/

theorem wrapCount_of_unbounded {cfg : Config} (h : cfg.rxcntW = none) (n : Nat) : wrapCount cfg n = n := by
  simp [wrapCount, h]

/-- With no bound on the buffer or the counter, an operation counts the bytes it offers (R14, R110). -/
theorem exec_rxTotal {i : Instr} {s t : State} (hcap : s.cfg.rxbufCap = none) (hw : s.cfg.rxcntW = none)
    (h : exec i s = .next t) : t.rxTotal = s.rxTotal + (offeredBy i).length := by
  rcases exec_next h with
    ⟨hi, r, rfl⟩ | ⟨chunk, rfl, -, rfl⟩ | ⟨rfl, rfl⟩ | ⟨chunk, rfl, -, rfl⟩ | ⟨chunk, rfl, ha, rfl⟩
  · simp [offeredBy_of_isPure hi]
  · exact wrapCount_of_unbounded hw _
  · rfl
  · exact wrapCount_of_unbounded hw _
  · rw [accepts_of_unbounded hcap] at ha
    cases ha

theorem step_rxTotal {s t : State} (hcap : s.cfg.rxbufCap = none) (hw : s.cfg.rxcntW = none)
    (hr : HostMove.reset ∉ s.pending.take 1) (h : step s = .next t) :
    t.rxTotal = s.rxTotal + (received 1 s).length := by
  rcases step_next h with ⟨hp, rfl⟩ | ⟨moves, hp, -⟩ | ⟨tr, moves, i, hp, hd, he⟩
  · simp [received, hp]
  · simp [hp] at hr
  · rw [received_one_issue hp hd]
    simpa using exec_rxTotal (s := s.withPending moves) hcap hw he

/-- Settles O50, by induction on the number of steps. -/
theorem rxTotalCountsEveryByteReceived : Obligations.RxTotalCountsEveryByteReceived := by
  intro n
  induction n with
  | zero => intro s t _ _ _ h; cases h; simp
  | succ n ih =>
    intro s u hcap hw hr h
    obtain ⟨t, hstep, hrun⟩ := run_succ_next h
    obtain ⟨hcfg, -, -⟩ := stepKeepsTheParameters s t hstep
    rw [take_pending_succ hstep, List.mem_append, not_or] at hr
    obtain ⟨hr1, hrn⟩ := hr
    calc u.rxTotal
        = t.rxTotal + (received n t).length := ih t u (hcfg ▸ hcap) (hcfg ▸ hw) hrn hrun
      _ = s.rxTotal + (received 1 s).length + (received n t).length := by rw [step_rxTotal hcap hw hr1 hstep]
      _ = s.rxTotal + (received (n + 1) s).length := by
        rw [received_succ hstep n, List.length_append, Nat.add_assoc]

end Sys2Proof.Machine

/-! SUPPORT. Proofs of the statements about the bytes of the block and its encoder (20_memory.md): the order in which
the checksum takes the bits of a byte (R31), and what the encoder operations leave alone (R36). -/

namespace Sys2Proof.Machine

/-! ### The bit-serial register -/

/-- The register of R31 takes one bit: it shifts, and a bit unlike its top bit lets the polynomial in (R70, D13). -/
def serialRound (c : U16) (bit : Bool) : U16 := if c.getLsbD 15 != bit then (c <<< 1) ^^^ CRC_POLY else c <<< 1

/-- A round of R70 on a register with the word `w` XOR-ed in takes bit `k` of `w` serially, where that bit meets the top
bit of the register; the bits of `w` below it move up for the rounds to come. -/
theorem crcRound_xor_shiftLeft (c w : U16) {k : Nat} (hk : k < 16) :
    crcRound (c ^^^ w <<< (15 - k)) = serialRound c (w.getLsbD k) ^^^ w <<< (16 - k) := by
  have htop : topBit (c ^^^ w <<< (15 - k)) = (c.getLsbD 15 != w.getLsbD k) := by
    simp [topBit, show ¬ 15 < 15 - k by omega, show 15 - (15 - k) = k by omega, hk]
  have hshift : (c ^^^ w <<< (15 - k)) <<< 1 = c <<< 1 ^^^ w <<< (16 - k) := by
    rw [BitVec.shiftLeft_xor_distrib, ← BitVec.shiftLeft_add, show 15 - k + 1 = 16 - k by omega]
  rw [crcRound, serialRound, htop, hshift]
  split
  · ac_rfl
  · rfl

/-- The low `n` bits of `w`, fed serially from bit `n - 1` down, are `n` rounds with these bits XOR-ed in at the top. -/
theorem foldl_serialRound (w : U16) {n : Nat} (hn : n ≤ 16) (c : U16) :
    ((List.range n).reverse.map w.getLsbD).foldl serialRound c = crcRounds n (c ^^^ w <<< (16 - n)) := by
  induction n generalizing c with
  | zero => simp [crcRounds]
  | succ k ih =>
    calc ((List.range (k + 1)).reverse.map w.getLsbD).foldl serialRound c
        = ((List.range k).reverse.map w.getLsbD).foldl serialRound (serialRound c (w.getLsbD k)) := by
          simp [List.range_succ]
      _ = crcRounds k (serialRound c (w.getLsbD k) ^^^ w <<< (16 - k)) := ih (by omega) _
      _ = crcRounds (k + 1) (c ^^^ w <<< (16 - (k + 1))) := by
          rw [← crcRound_xor_shiftLeft c w (by omega), crcRounds, show 16 - (k + 1) = 15 - k by omega]

/-- A byte of R70 is its eight bits fed serially, bit 7 first (R31). -/
theorem crcByte_eq_foldl_serialRound (c : U16) (b : Byte) :
    crcByte c b = ([7, 6, 5, 4, 3, 2, 1, 0].map b.getLsbD).foldl serialRound c := by
  have hbits : [7, 6, 5, 4, 3, 2, 1, 0].map b.getLsbD =
      (List.range 8).reverse.map (b.zeroExtend 16 : U16).getLsbD := by
    simp [List.range_succ]
  rw [hbits, foldl_serialRound _ (by omega), crcByte]

/-- Settles O9, byte by byte: the rounds of a byte take its bits one at a time. -/
theorem crc16IsBitSerialMsbFirst : Obligations.Crc16IsBitSerialMsbFirst := by
  intro data
  rw [List.foldl_flatMap]
  exact congrArg (List.foldl · CRC_INIT data) (funext₂ crcByte_eq_foldl_serialRound)

/-! ### The encoder operations -/

/-- Settles O45: the result depends on the parameters alone, and handing it over leaves these as they were. -/
theorem encoderOperationsLeaveTheBlockAlone : Obligations.EncoderOperationsLeaveTheBlockAlone := by
  intro i s t hi h
  obtain ⟨r, rfl, hr⟩ := exec_pure_next hi h
  refine ⟨r, rfl, ?_⟩
  rw [hr (s.deliver r) rfl]
  simp [State.deliver]

end Sys2Proof.Machine

/-! SUPPORT. Proofs of the statements about the encoding (30_encoding.md): the frame `ENCODE` answers, byte for byte (R50
to R55), and its size and markers (R58). -/

namespace Sys2Proof.Machine

/-- `ENCODE` of a payload in range hands over the frame (R90, R92). -/
theorem exec_encode {payload : List Byte} (h : payload.length ≤ 1020) (ty : U16) (s : State) :
    exec (.encode ty payload) s = .next (s.deliver (.bytes (encodeFrame s.cfg.key ty payload))) :=
  if_pos ((payloadInRange_iff payload).2 h)

/-- The header of the body is 4 bytes, so the payload alone decides whether a pad follows (R91). -/
theorem pad_eq (payload : List Byte) : pad payload = if payload.length % 2 = 1 then [0x00] else [] := by
  rw [pad, show (4 + payload.length) % 2 = payload.length % 2 by omega]

/-- Settles O17: the body's fields are the type and the length byte by byte, and the frame is the body in its four parts. -/
theorem encodeReturnsTheFrame : Obligations.EncodeReturnsTheFrame := by
  intro s ty payload h size body ck n
  have hbody : clearBody ty payload = body := by
    rw [clearBody_eq ty payload h, lowByte_eq_ofNat, highByte_eq_ofNat, pad_eq]
    rfl
  have hn : body.length < 65536 := by
    rw [← hbody, clearBody_length]
    omega
  rw [exec_encode h, encodeFrame, hbody, frameOf_eq s.cfg.key body hn, le16_eq_ofNat]
  rfl

/-- Settles O18: between the length field and the tail marker stand the masked body and checksum. -/
theorem encodedFrameSizesAndMarkers : Obligations.EncodedFrameSizesAndMarkers := by
  intro key ty payload h
  have hframe := encodeFrame_length key ty payload
  have hbody := clearBody_length ty payload
  obtain ⟨lo, hi, hn, hparts⟩ := encodeFrame_parts key ty payload h []
  refine ⟨lo, hi, obf key (clearBody ty payload ++ le16 (crc16 (clearBody ty payload))), ?_, ?_, ?_, ?_, ?_, ?_⟩
  · rw [List.append_nil] at hparts
    exact hparts
  · rw [obf_length, List.length_append, le16_length, hn]
  all_goals omega

end Sys2Proof.Machine

/-! SUPPORT. Proofs of the statements about the checksum (40_checksum.md): the register's recurrence and what follows from
its linearity (R70, R71), the comparison (R72), and the one altered byte that the scanner's test catches (R122). -/

namespace Sys2Proof.Machine

/-! ### `CRC16` -/

theorem exec_crc16 (data : List Byte) (s : State) : exec (.crc16 data) s = .next (s.deliver (.checksum (crc16 data))) :=
  rfl

/-- One more byte of data is one more byte into the register (R70). -/
theorem crc16_snoc (data : List Byte) (b : Byte) : crc16 (data ++ [b]) = crcByte (crc16 data) b := crc16_append data [b]

/-- Settles O8: the eight rounds of one more byte are the eightfold iterate of a round. -/
theorem crc16RegisterRecurrence : Obligations.Crc16RegisterRecurrence := by
  refine ⟨fun s data => exec_crc16 data s, crc16_nil, fun data b => ?_, by decide⟩
  rw [crc16_snoc, crcByte, crcRounds_eq_iterate]
  rfl

/-- XOR-ing its own high byte into a register leaves the low byte. -/
theorem xor_highByte (c : U16) : c ^^^ ((highByte c).zeroExtend 16 <<< 8) = (lowByte c).zeroExtend 16 := by
  apply BitVec.eq_of_getLsbD_eq
  intro i hi
  rcases Nat.lt_or_ge i 8 with hlow | hhigh
  · simp [highByte, lowByte, hlow, hi]
  · simp [highByte, lowByte, show ¬ i < 8 by omega, show i - 8 < 8 by omega, hi, show 8 + (i - 8) = i by omega]

/-- After its own high byte, a register holds its low byte in the high place. -/
theorem crcByte_highByte (c : U16) : crcByte c (highByte c) = (lowByte c).zeroExtend 16 <<< 8 := by
  rw [crcByte, xor_highByte, crcRounds_lowByte]

/-- A register with `b` in the high place and zero in the low one is cleared by the byte `b`. -/
theorem crcByte_of_shifted (b : Byte) : crcByte (b.zeroExtend 16 <<< 8) b = 0 := by
  rw [crcByte, BitVec.xor_self]
  decide

/-- Settles O10: the high byte of the checksum shifts its low byte up, and the low byte clears the register. -/
theorem crc16OfDataThenChecksumIsZero : Obligations.Crc16OfDataThenChecksumIsZero := by
  intro data
  calc crc16 (data ++ [highByte (crc16 data), lowByte (crc16 data)])
      = crcByte (crcByte (crc16 data) (highByte (crc16 data))) (lowByte (crc16 data)) := crc16_append ..
    _ = 0 := by rw [crcByte_highByte, crcByte_of_shifted]

theorem crc16_zeros (n : Nat) : crc16 (List.replicate n 0x00) = 0 := foldl_crcByte_zeros n

/-- Settles O11: zero bytes leave the register at its initial value, which is zero. -/
theorem crc16IgnoresLeadingZeros : Obligations.Crc16IgnoresLeadingZeros := by
  intro n data
  refine ⟨crc16_zeros n, ?_⟩
  rw [crc16_append, crc16_zeros]
  rfl

/-- Settles O12: unequal bytes lead to unequal registers, and the bytes behind them keep these apart. -/
theorem crc16DetectsOneChangedByte : Obligations.Crc16DetectsOneChangedByte := by
  intro before after x y hxy h
  rw [crc16_append _ after, crc16_append _ after, crc16_snoc, crc16_snoc] at h
  exact hxy (crcByte_injective_byte _ (foldl_crcByte_injective after h))

/-! ### `CRCCHK` -/

theorem exec_crcchk (data : List Byte) (expected : U16) (s : State) :
    exec (.crcchk data expected) s = .next (s.deliver (.verdict (crcGood data expected))) := rfl

theorem exec_crcchk_of_eq {data : List Byte} {expected : U16} (h : crc16 data = expected) (s : State) :
    exec (.crcchk data expected) s = .next (s.deliver (.verdict true)) := by
  rw [exec_crcchk, (crcGood_iff data expected).2 h]

theorem exec_crcchk_of_ne {data : List Byte} {expected : U16} (h : crc16 data ≠ expected) (s : State) :
    exec (.crcchk data expected) s = .next (s.deliver (.verdict false)) := by
  rw [exec_crcchk, Bool.eq_false_iff.2 (mt (crcGood_iff data expected).1 h)]

/-- The worked example of R72. -/
theorem crc16_worked_example : crc16 [0x34, 0x12, 0x00, 0x00] = 0xCB1B := by decide +kernel

/-- Settles O13: the verdict is the comparison, and each example's checksum is known. -/
theorem crcchkReturnsTheComparison : Obligations.CrcchkReturnsTheComparison :=
  ⟨fun s data expected => ⟨crcGood data expected, exec_crcchk data expected s, crcGood_iff data expected⟩,
    exec_crcchk_of_eq crc16_nil,
    fun s n => exec_crcchk_of_eq (crc16_zeros n) s,
    exec_crcchk_of_eq crc16_worked_example,
    exec_crcchk_of_ne (by rw [crc16_worked_example]; decide)⟩

/-! ### One altered byte of a frame -/

theorem lowByte_join (lo hi : Byte) : lowByte (hi ++ lo) = lo := by
  apply BitVec.eq_of_toNat_eq
  rw [lowByte_eq_ofNat, toNat_join, BitVec.toNat_ofNat, leNat]
  omega

theorem highByte_join (lo hi : Byte) : highByte (hi ++ lo) = hi := by
  apply BitVec.eq_of_toNat_eq
  rw [highByte_eq_ofNat, toNat_join, BitVec.toNat_ofNat, leNat]
  omega

/-- Writing back the field that stands behind `front` gives the field's two bytes. -/
theorem le16_u16le (front : List Byte) {field : List Byte} (h : field.length = 2) :
    le16 (u16le (front ++ field) front.length) = field := by
  match field, h with
  | [lo, hi], _ =>
    rw [u16le_eq (lo := lo) (hi := hi) (by simp) (by simp), le16, lowByte_join, highByte_join]

/-- A body with its checksum behind it fails the comparison of step 9 when one byte is altered (R70, R122): of the body,
for the checksum of the body changes and the field does not; of the field, for the field changes and the body does not. -/
theorem crc16_ne_of_altered {body front back : List Byte} {x y : Byte}
    (h : body ++ le16 (crc16 body) = front ++ [x] ++ back) (hxy : x ≠ y) :
    crc16 ((front ++ [y] ++ back).take body.length) ≠ u16le (front ++ [y] ++ back) body.length := by
  have hbody : body <+: front ++ [x] ++ back := ⟨_, h⟩
  rcases Nat.lt_or_ge front.length body.length with hin | hout
  · have hfront : front ++ [x] <+: body :=
      List.prefix_of_prefix_length_le (List.prefix_append ..) hbody (by simpa using hin)
    obtain ⟨mid, rfl⟩ := hfront
    have hback : mid ++ le16 (crc16 (front ++ [x] ++ mid)) = back := by simpa using h
    have hfield := u16le_le16 (front ++ [y] ++ mid) [] (crc16 (front ++ [x] ++ mid))
    have hlen : (front ++ [x] ++ mid).length = (front ++ [y] ++ mid).length := by simp
    rw [List.append_nil] at hfield
    rw [← hback, ← List.append_assoc, hlen, List.take_left, hfield]
    exact crc16DetectsOneChangedByte front mid y x hxy.symm
  · have hfront : body <+: front :=
      List.prefix_of_prefix_length_le hbody (by rw [List.append_assoc]; exact List.prefix_append ..) hout
    obtain ⟨mid, rfl⟩ := hfront
    have hfield : le16 (crc16 body) = mid ++ ([x] ++ back) := by simpa using h
    have htwo : (mid ++ ([y] ++ back)).length = 2 := by
      rw [← le16_length (crc16 body), hfield]
      simp
    rw [List.append_assoc, List.append_assoc, List.take_left]
    intro hgood
    have hsame : mid ++ ([x] ++ back) = mid ++ ([y] ++ back) := by
      rw [← hfield, hgood, le16_u16le body htwo]
    simp [hxy] at hsame

/-- Masking or unmasking a sequence in which one byte is free: the byte is XOR-ed with one key byte (R80). -/
theorem obf_one_byte (key : Vector Byte 16) (front back : List Byte) (b : Byte) :
    obf key (front ++ [b] ++ back) =
      obf key front ++ [b ^^^ keyByte key front.length] ++ obfFrom key (front.length + 1) back := by
  simp [obf, obfFrom_append, obfFrom]

/-- The altered byte of a masked region is an altered byte of the clear one, so the scan's comparison fails (R80, R122). -/
theorem crc16_ne_of_altered_masked {key : Vector Byte 16} {body front back : List Byte} {x y : Byte}
    (h : obf key (body ++ le16 (crc16 body)) = front ++ [x] ++ back) (hxy : x ≠ y) :
    crc16 ((obf key (front ++ [y] ++ back)).take body.length) ≠ u16le (obf key (front ++ [y] ++ back)) body.length := by
  have hclear : body ++ le16 (crc16 body) = obf key (front ++ [x] ++ back) := by
    rw [← h]
    exact (deobf_obf key _).symm
  rw [obf_one_byte] at hclear ⊢
  exact crc16_ne_of_altered hclear fun he => hxy ((BitVec.xor_left_inj _).1 he)

/-- A byte that stands neither in the first part of a sequence nor in its last stands in the middle one. -/
theorem middle_split {first middle last head after : List Byte} {x : Byte}
    (h : first ++ middle ++ last = head ++ [x] ++ after) (hh : first.length ≤ head.length)
    (ha : last.length ≤ after.length) :
    ∃ front back, head = first ++ front ∧ after = back ++ last ∧ middle = front ++ [x] ++ back := by
  have hfirst : first <+: head :=
    List.prefix_of_prefix_length_le ⟨middle ++ last, by rw [← List.append_assoc, h]⟩
      (by rw [List.append_assoc]; exact List.prefix_append ..) hh
  have hlast : last <:+ after := List.suffix_of_suffix_length_le ⟨_, h⟩ (List.suffix_append ..) ha
  obtain ⟨front, rfl⟩ := hfirst
  obtain ⟨back, rfl⟩ := hlast
  exact ⟨front, back, rfl, rfl, List.append_cancel_right (by simpa using h)⟩

/-- A whole frame with a body of 2 bytes or more whose checksum does not fit it: the frame goes and gives nothing (R122,
decision D8). -/
theorem scanPass_badChecksum {key : Vector Byte 16} {lo hi : Byte} {region : List Byte} (rest : List Byte)
    (hmin : 2 ≤ leNat lo hi) (hmax : leNat lo hi ≤ 1024) (hr : region.length = leNat lo hi + 2)
    (hbad : crc16 ((obf key region).take (leNat lo hi)) ≠ u16le (obf key region) (leNat lo hi)) :
    scanPass key ([0xAB, 0xCD, lo, hi] ++ region ++ [0xDC, 0xBA] ++ rest) = ⟨.badChecksum, rest, none⟩ := by
  rw [scanPass_whole key hmax hr, if_pos ⟨rfl, rfl⟩, if_neg (by omega), if_neg hbad]

/-- Settles O44: the altered byte stands in the region between the length field and the tail, the frame is whole and goes,
and the checksum does not fit the body any more. -/
theorem oneAlteredRegionByteIsRejected : Obligations.OneAlteredRegionByteIsRejected := by
  intro s ty payload head after rest x y hp hframe hhead hafter hxy hbuf
  obtain ⟨lo, hi, hn, hparts⟩ := encodeFrame_parts s.cfg.key ty payload hp []
  have hsize := clearBody_length ty payload
  generalize clearBody ty payload = body at hn hparts hsize
  have hsplit : [0xAB, 0xCD, lo, hi] ++ obf s.cfg.key (body ++ le16 (crc16 body)) ++ [0xDC, 0xBA] =
      head ++ [x] ++ after := by
    rw [← hframe, ← List.append_nil (encodeFrame ..), hparts]
    rfl
  obtain ⟨front, back, rfl, rfl, hregion⟩ := middle_split hsplit hhead hafter
  have hlen : (front ++ [y] ++ back).length = leNat lo hi + 2 :=
    calc (front ++ [y] ++ back).length
        = (front ++ [x] ++ back).length := by simp
      _ = leNat lo hi + 2 := by rw [← hregion, obf_length, List.length_append, le16_length, hn]
  have hbad := crc16_ne_of_altered_masked hregion hxy
  rw [← hn] at hbad
  have hpass := scanPass_badChecksum rest (by omega) (by omega) hlen hbad
  have hrx : s.rxbuf = [0xAB, 0xCD, lo, hi] ++ (front ++ [y] ++ back) ++ [0xDC, 0xBA] ++ rest := by simp [hbuf]
  rw [exec_scan, State.afterScan_eq, hrx, hpass]

end Sys2Proof.Machine

/-! SUPPORT. Proofs of the statements about the mask (41_obfuscation.md): what `OBF` does to a sequence byte by byte (R80),
what follows from its being an XOR with one key stream (R81), and `DEOBF` (R82). -/

namespace Sys2Proof.Machine

/-! ### `OBF` -/

theorem exec_obf (data : List Byte) (s : State) : exec (.obf data) s = .next (s.deliver (.bytes (obf s.cfg.key data))) :=
  rfl

/-- Zero bytes read the key table out (R80). -/
theorem obf_replicate_zero_getElem? (key : Vector Byte 16) {n i : Nat} (h : i < n) :
    (obf key (List.replicate n 0x00))[i]? = some (keyByte key i) := by
  rw [obf_getElem?, List.getElem?_replicate_of_lt h, Option.map_some]
  exact congrArg some BitVec.zero_xor

/-- Settles O14: each clause reads the mask at one index; a slice of two bytes from offset 1 shows that the key index counts
from the first byte of the sequence given. -/
theorem obfMasksByteByByte : Obligations.ObfMasksByteByByte := by
  refine ⟨fun s data => ⟨obf s.cfg.key data, exec_obf data s, obf_length _ data, fun i h => ?_⟩, fun _ => rfl,
    fun key n i h => obf_replicate_zero_getElem? key h, obf_take, fun key s a b ha => ?_,
    ⟨suggestedKey, [0x00, 0x00], 1, by decide⟩, by decide⟩
  · rw [obf_getElem?, List.getElem?_eq_getElem h]
    rfl
  · rw [obf_drop key s ha, obf_take]

/-! ### The mask as an involution -/

theorem obf_obf (key : Vector Byte 16) (x : List Byte) : obf key (obf key x) = x := deobf_obf key x

/-- A byte of the key falls out of the XOR of two bytes it masks. -/
theorem byte_xor_xor_cancel (x y k : Byte) : (x ^^^ k) ^^^ (y ^^^ k) = x ^^^ y := by
  rw [BitVec.xor_comm y k, BitVec.xor_assoc, ← BitVec.xor_assoc k k y, BitVec.xor_self, BitVec.zero_xor]

/-- The key stream falls out of the XOR of two sequences masked from one index (R81). -/
theorem zipWith_xor_obfFrom (key : Vector Byte 16) (i : Nat) (a b : List Byte) :
    List.zipWith (· ^^^ ·) (obfFrom key i a) (obfFrom key i b) = List.zipWith (· ^^^ ·) a b := by
  induction a generalizing i b with
  | nil => rfl
  | cons x a ih =>
    cases b with
    | nil => rfl
    | cons y b => simp only [obfFrom, List.zipWith_cons_cons, byte_xor_xor_cancel, ih]

/-- Settles O15: an involution is a bijection, and two sequences masked with one key stream differ as they did before. -/
theorem obfIsAnInvolutionOnSequences : Obligations.ObfIsAnInvolutionOnSequences := fun key =>
  ⟨obf_obf key, obf_length key, Function.Involutive.bijective (obf_obf key), fun a b _ => zipWith_xor_obfFrom key 0 a b⟩

/-! ### `DEOBF` -/

/-- `DEOBF` is `OBF` under a second name (R82). -/
theorem exec_deobf (data : List Byte) (s : State) : exec (.deobf data) s = exec (.obf data) s := rfl

/-- Settles O16: masking with the same key undoes itself. -/
theorem deobfIsObfAndUndoesIt : Obligations.DeobfIsObfAndUndoesIt := by
  refine ⟨fun s data => exec_deobf data s, fun s data => ⟨obf s.cfg.key data, exec_obf data s, ?_⟩⟩
  rw [exec_deobf, exec_obf, obf_obf]
  rfl

end Sys2Proof.Machine

/-! SUPPORT. Proofs of the statements about encoding and decoding a frame (42_frame_encode.md): `DECODE_BODY` (R100, R101)
and `POLL` (R122, R123) give back the message a frame was made from, so no two messages share a frame (R93, R94). -/

namespace Sys2Proof.Machine

/-! ### Through `DECODE_BODY` -/

/-- `DECODE_BODY` of a body in range hands over the message in the unmasked body (R100). -/
theorem exec_decodeBody {masked : List Byte} (h : 4 ≤ masked.length) (s : State) :
    exec (.decodeBody masked) s = .next (s.deliver (.decoded (parseBody (deobf s.cfg.key masked)))) :=
  if_pos ((bodyInRange_iff masked).2 h)

/-- The masked body of a frame: its bytes 4 to `N + 3`, which lie between the length field and the checksum (R50). -/
abbrev maskedBody (frame : List Byte) : List Byte := (frame.drop 4).take (frame.length - 8)

/-- The mask starts on the body and runs on into the checksum (R51, R80), so the body is masked as it would be alone. -/
theorem maskedBody_encodeFrame (key : Vector Byte 16) (ty : U16) {payload : List Byte} (h : payload.length ≤ 1020) :
    maskedBody (encodeFrame key ty payload) = obf key (clearBody ty payload) := by
  obtain ⟨lo, hi, -, hparts⟩ := encodeFrame_parts key ty payload h []
  have hsize : (encodeFrame key ty payload).length - 8 = (clearBody ty payload).length := by
    rw [encodeFrame, frameOf_length, Nat.add_sub_cancel]
  rw [maskedBody, hsize, ← List.append_nil (encodeFrame key ty payload), hparts]
  simp [List.take_append_of_le_length, obf_take]

theorem parseBody_clearBody (ty : U16) {payload : List Byte} (h : payload.length ≤ 1020) :
    parseBody (clearBody ty payload) = ⟨ty, payload⟩ := by
  have hparse := parseRegion_clearBody ty payload [] h
  rwa [List.append_nil, ← parseBody_eq_parseRegion] at hparse

/-- Unmasking and parsing a frame's body undoes `ENCODE` (R90, R101, R104). -/
theorem parseBody_encodeFrame (key : Vector Byte 16) (ty : U16) {payload : List Byte} (h : payload.length ≤ 1020) :
    parseBody (deobf key (maskedBody (encodeFrame key ty payload))) = ⟨ty, payload⟩ := by
  rw [maskedBody_encodeFrame key ty h, deobf_obf, parseBody_clearBody ty h]

/-- Settles O21: the body is never too short for `DECODE_BODY`, and parsing it undoes `ENCODE`. -/
theorem decodeBodyRecoversTheEncodedMessage : Obligations.DecodeBodyRecoversTheEncodedMessage := by
  intro s ty payload h
  have hlong : 4 ≤ (maskedBody (encodeFrame s.cfg.key ty payload)).length := by
    rw [maskedBody_encodeFrame s.cfg.key ty h, obf_length, clearBody_length]
    omega
  refine ⟨encodeFrame s.cfg.key ty payload, exec_encode h ty s, ?_⟩
  rw [exec_decodeBody hlong, parseBody_encodeFrame s.cfg.key ty h]
  rfl

/-- Settles O19: `ENCODE` has an inverse, so the frame determines the message. -/
theorem encodeIsOneToOne : Obligations.EncodeIsOneToOne := by
  intro key ty ty' payload payload' h h' hframe
  have hmessage : (⟨ty, payload⟩ : Message) = ⟨ty', payload'⟩ := by
    rw [← parseBody_encodeFrame key ty h, hframe, parseBody_encodeFrame key ty' h']
  exact Message.mk.inj hmessage

/-! ### Through `POLL` -/

/-- A frame that `ENCODE` made, in front of anything, passes every test of the scan: the frame goes and its message is
found (R122, R123, R126). -/
theorem scanPass_encodeFrame (key : Vector Byte 16) (ty : U16) {payload : List Byte} (h : payload.length ≤ 1020)
    (rest : List Byte) :
    scanPass key (encodeFrame key ty payload ++ rest) = ⟨.message, rest, some ⟨ty, payload⟩⟩ := by
  obtain ⟨lo, hi, hn, hparts⟩ := encodeFrame_parts key ty payload h rest
  have hsize := clearBody_length ty payload
  have hparse := parseRegion_clearBody ty payload (le16 (crc16 (clearBody ty payload))) h
  generalize clearBody ty payload = body at hn hparts hsize hparse
  have hregion : (obf key (body ++ le16 (crc16 body))).length = leNat lo hi + 2 := by
    rw [obf_length, List.length_append, le16_length, hn]
  have hfield : u16le (body ++ le16 (crc16 body)) body.length = crc16 body := by
    simpa using u16le_le16 body [] (crc16 body)
  have hwhole : encodeFrame key ty payload ++ rest =
      [0xAB, 0xCD, lo, hi] ++ obf key (body ++ le16 (crc16 body)) ++ [0xDC, 0xBA] ++ rest := by simp [hparts]
  rw [hwhole, scanPass_whole key (by omega) hregion, if_pos ⟨rfl, rfl⟩, if_neg (by omega), obf_obf, hn,
    List.take_left, hfield, if_pos rfl, hparse]

/-- Settles O38: the frame fits an empty buffer of any block, and the scan finds its message with nothing left behind. -/
theorem roundTripThroughPoll : Obligations.RoundTripThroughPoll := by
  intro s ty payload hwf hempty h
  have hfits : s.accepts (encodeFrame s.cfg.key ty payload) = true := by
    refine accepts_of_le hwf ?_
    rw [hempty, encodeFrame_length, List.length_nil]
    omega
  have hpass : scanPass s.cfg.key (encodeFrame s.cfg.key ty payload) = ⟨.message, [], some ⟨ty, payload⟩⟩ := by
    simpa using scanPass_encodeFrame s.cfg.key ty h []
  refine ⟨encodeFrame s.cfg.key ty payload, (s.push (encodeFrame s.cfg.key ty payload)).afterScan,
    exec_encode h ty s, ?_, ?_, ?_⟩
  · rw [exec_poll, if_pos hfits]
  · simp [hempty, hpass]
  · simp [hempty, hpass]

end Sys2Proof.Machine

/-! SUPPORT. Proof of the statement about decoding a body (43_frame_decode.md): what `DECODE_BODY` reads out of any operand
of at least 4 bytes, whether `ENCODE` made it or not (R100, R101). -/

namespace Sys2Proof.Machine

/-- The four bytes of the header meet the key bytes 0 to 3; the bytes behind them go on from key index 4 (R80). -/
theorem deobf_header (key : Vector Byte 16) (b0 b1 b2 b3 : Byte) (rest : List Byte) :
    deobf key (b0 :: b1 :: b2 :: b3 :: rest) =
      (b0 ^^^ keyByte key 0) :: (b1 ^^^ keyByte key 1) :: (b2 ^^^ keyByte key 2) :: (b3 ^^^ keyByte key 3) ::
        obfFrom key 4 rest := rfl

/-- The message in a clear body: the type, and as many bytes behind the header as are declared and present (R101, D10). -/
theorem parseBody_header (b0 b1 b2 b3 : Byte) (tail : List Byte) :
    parseBody (b0 :: b1 :: b2 :: b3 :: tail) = ⟨b1 ++ b0, tail.take (min (leNat b2 b3) tail.length)⟩ :=
  parseRegion_eq tail (tail.length + 4)

/-- Settles O20: the unmasked operand is a header and the bytes behind it, and the payload is a prefix of the latter. -/
theorem decodeBodyReturnsTheMessage : Obligations.DecodeBodyReturnsTheMessage := by
  intro s b0 b1 b2 b3 rest k
  have htail : (obfFrom s.cfg.key 4 rest).length = rest.length := obfFrom_length s.cfg.key 4 rest
  refine ⟨(b1 ^^^ k 1) ++ (b0 ^^^ k 0),
    (obfFrom s.cfg.key 4 rest).take (min (leNat (b2 ^^^ k 2) (b3 ^^^ k 3)) rest.length), ?_, toNat_join _ _, ?_, ?_⟩
  · rw [exec_decodeBody (by simp), deobf_header, parseBody_header, htail]
    rfl
  · rw [List.length_take, htail, Nat.min_assoc, Nat.min_self]
  · intro j hj hlen
    rw [List.length_take] at hlen
    rw [List.getElem?_take_of_lt (Nat.lt_of_lt_of_le hlen (Nat.min_le_left _ _)), obfFrom_getElem?,
      List.getElem?_eq_getElem hj]
    rfl

end Sys2Proof.Machine

/-! SUPPORT. Proofs of the statements about the stream scanner (44_stream_scanner.md): the push (R110, R111), the
invariant, the branches of a `SCAN` (R113 to R123), the buffers on which a `SCAN` waits (R129), and the delivery of
whole frames (R126 to R128). -/

namespace Sys2Proof.Machine

/-! ### `RX_PUSH` and `POLL` -/

/-- A push that is accepted appends, counts and hands over nothing (R110). -/
theorem exec_rxPush_of_accepts {s : State} {chunk : List Byte} (h : s.accepts chunk = true) :
    exec (.rxPush chunk) s = .next ((s.push chunk).deliver .nothing) := by
  rw [exec_rxPush, if_pos h]

/-- A push answers a next state only when it is accepted (R111). -/
theorem exec_rxPush_next {s t : State} {chunk : List Byte} (h : exec (.rxPush chunk) s = .next t) :
    s.accepts chunk = true ∧ t = (s.push chunk).deliver .nothing := by
  rw [exec_rxPush] at h
  split at h
  · exact ⟨‹_›, (Host.Outcome.next.inj h).symm⟩
  · cases h

theorem exec_poll_of_accepts {s : State} {chunk : List Byte} (h : s.accepts chunk = true) :
    exec (.poll chunk) s = .next (s.push chunk).afterScan := by
  rw [exec_poll, if_pos h]

theorem wrapCount_of_width {cfg : Config} {w : Nat} (h : cfg.rxcntW = some w) (n : Nat) :
    wrapCount cfg n = n % 2 ^ w := by
  simp [wrapCount, h]

/-- Settles O22: the bytes fit, and the counter's width decides how they are counted. -/
theorem rxPushAppendsAndCounts : Obligations.RxPushAppendsAndCounts := by
  intro s chunk hfits
  have hpush := exec_rxPush_of_accepts ((accepts_iff s chunk).2 hfits)
  refine ⟨fun hw => ?_, fun w hw => ?_⟩
  · rw [← wrapCount_of_unbounded hw (s.rxTotal + chunk.length)]
    exact hpush
  · rw [← wrapCount_of_width hw (s.rxTotal + chunk.length)]
    exact hpush

/-- Two pieces fit one after the other exactly when they fit together (R111). -/
theorem accepts_append_iff (s : State) (a b : List Byte) :
    s.accepts (a ++ b) = true ↔ s.accepts a = true ∧ (s.push a).accepts b = true := by
  simp only [accepts_iff, State.push_cfg, State.push_rxbuf, List.length_append]
  exact ⟨fun h => ⟨fun cap hc => by have := h cap hc; omega, fun cap hc => by have := h cap hc; omega⟩,
    fun h cap hc => by have := h.2 cap hc; omega⟩

/-- Two pushes append and count what one push of both pieces does (R110); the wrap of the counter does not show. -/
theorem push_push (s : State) (a b : List Byte) : (s.push a).push b = s.push (a ++ b) := by
  simp [State.push, append, wrapCount_wrapCount_add, Nat.add_assoc]

/-- Settles O23: the second piece meets the buffer and the counter the first one left. -/
theorem rxPushInPiecesIsTheSame : Obligations.RxPushInPiecesIsTheSame := by
  intro s t a b h
  obtain ⟨hab, rfl⟩ := exec_rxPush_next h
  obtain ⟨ha, hb⟩ := (accepts_append_iff s a b).1 hab
  refine ⟨_, _, exec_rxPush_of_accepts ha, exec_rxPush_of_accepts hb, ?_, ?_⟩
  · exact congrArg (·.rxbuf) (push_push s a b)
  · exact congrArg (·.rxTotal) (push_push s a b)

/-- Settles O36, by whether the push is accepted. -/
theorem pollIsPushThenScan : Obligations.PollIsPushThenScan := by
  intro s chunk
  refine ⟨fun t ht => ?_, fun r hr => ?_, ?_⟩
  · obtain ⟨ha, rfl⟩ := exec_rxPush_next ht
    exact exec_poll_of_accepts ha
  · have ha : s.accepts chunk ≠ true := fun ha => by
      rw [exec_rxPush_of_accepts ha] at hr
      cases hr
    rw [exec_poll, if_neg ha, exec_scan]
  · rw [exec_poll]
    split
    · exact ⟨_, _, _, rfl⟩
    · exact ⟨_, _, _, rfl⟩

/-! ### The invariant -/

theorem State.wf_deliver {s : State} (h : s.wf = true) (r : Result) : (s.deliver r).wf = true := h

/-- An accepted push leaves the buffer within its capacity and the counter within its width (R111, R14). -/
theorem State.wf_push {s : State} {chunk : List Byte} (h : s.wf = true) (ha : s.accepts chunk = true) :
    (s.push chunk).wf = true := by
  obtain ⟨hcfg, -, -⟩ := (state_wf_iff s).1 h
  exact (state_wf_iff _).2 ⟨hcfg, Memory.wf_append ha, counterInRange_wrapCount _ _⟩

theorem State.wf_afterScan {s : State} (h : s.wf = true) : s.afterScan.wf = true := by
  obtain ⟨hcfg, hbuf, hcount⟩ := (state_wf_iff s).1 h
  exact (state_wf_iff _).2 ⟨hcfg, afterScan_wf hbuf, hcount⟩

theorem State.wf_withPending {s : State} (h : s.wf = true) (moves : List HostMove) :
    (s.withPending moves).wf = true := h

theorem State.wf_resetEvent {s : State} (h : s.wf = true) : s.resetEvent.wf = true := by
  obtain ⟨hcfg, -, -⟩ := (state_wf_iff s).1 h
  exact (state_wf_iff _).2 ⟨hcfg, Memory.wf_nil _, counterInRange_zero _⟩

theorem exec_keeps_wf {i : Instr} {s t : State} (hwf : s.wf = true) (h : exec i s = .next t) : t.wf = true := by
  rcases exec_next h with ⟨-, r, rfl⟩ | ⟨chunk, -, ha, rfl⟩ | ⟨-, rfl⟩ | ⟨chunk, -, ha, rfl⟩ | ⟨chunk, -, -, rfl⟩
  · exact State.wf_deliver hwf r
  · exact State.wf_deliver (State.wf_push hwf ha) .nothing
  · exact State.wf_afterScan hwf
  · exact State.wf_afterScan (State.wf_push hwf ha)
  · exact State.wf_afterScan hwf

/-- Settles O47, by the three things a step can be: an idle step, a reset, an operation. -/
theorem stepKeepsWellFormed : Obligations.StepKeepsWellFormed := by
  intro s t hwf h
  rcases step_next h with ⟨-, rfl⟩ | ⟨moves, -, rfl⟩ | ⟨tr, moves, i, -, -, he⟩
  · exact hwf
  · exact State.wf_resetEvent (State.wf_withPending hwf moves)
  · exact exec_keeps_wf (State.wf_withPending hwf moves) he

/-! ### `SCAN`, branch by branch -/

/-- What the pass over the buffer comes to is what `SCAN` does (R112). -/
theorem exec_scan_of_pass {s : State} {outcome : ScanOutcome} {rest : List Byte} {found : Option Message}
    (h : scanPass s.cfg.key s.rxbuf = ⟨outcome, rest, found⟩) :
    exec .scan s = .next { s with rxbuf := rest, results := s.results ++ [.scanned found] } := by
  rw [exec_scan, State.afterScan_eq, h]

/-- Settles O25: the length is tested before the bytes are looked at. -/
theorem scanWaitsUnderEightBytes : Obligations.ScanWaitsUnderEightBytes := fun s h =>
  exec_scan_of_pass (scanPass_short s.cfg.key h)

/-- Settles O26, by the last byte of the buffer. -/
theorem scanWithoutMarkerKeepsATrailingAB : Obligations.ScanWithoutMarkerKeepsATrailingAB := by
  intro s hlen hno
  have hpass := scanPass_noMarker s.cfg.key hlen hno
  refine ⟨fun hAB => ?_, fun hAB => ?_⟩
  · rw [if_pos hAB] at hpass
    exact exec_scan_of_pass hpass
  · rw [if_neg hAB] at hpass
    exact exec_scan_of_pass hpass

/-- Settles O27: the pass goes on at the marker, and what stands behind it is a whole buffer, no length field, or a
length field with fewer bytes behind it than any frame has. -/
theorem scanDropsWhatPrecedesTheLeftmostMarker : Obligations.ScanDropsWhatPrecedesTheLeftmostMarker := by
  intro s g r hbuf hg hlen
  have hpass : scanPass s.cfg.key s.rxbuf = scanFrame s.cfg.key (0xAB :: 0xCD :: r) := by
    rw [hbuf] at hlen ⊢
    exact scanPass_garbage s.cfg.key r hg hlen
  refine ⟨fun h6 => ?_, fun h2 => ?_, fun lo hi r' hr h6 => ?_⟩
  · rw [← scanPass_front s.cfg.key r h6] at hpass
    exact exec_scan_of_pass hpass
  · rw [scanFrame_waitLen s.cfg.key (by simp; omega)] at hpass
    exact exec_scan_of_pass hpass
  · subst hr
    simp only [List.length_cons] at h6
    by_cases hbig : 1024 < leNat lo hi
    · rw [scanFrame_oversize s.cfg.key r' hbig] at hpass
      rw [if_pos hbig]
      exact exec_scan_of_pass hpass
    · rw [scanFrame_waitFrame s.cfg.key (by omega) (by omega)] at hpass
      rw [if_neg hbig]
      exact exec_scan_of_pass hpass

/-- Settles O30: the tail is tested before the region is looked at (R145). -/
theorem scanDropsOnlyTheMarkerOnABadTail : Obligations.ScanDropsOnlyTheMarkerOnABadTail := by
  intro s lo hi t₀ t₁ region rest hbuf hn hr htail
  have hpass := scanPass_whole s.cfg.key (t0 := t₀) (t1 := t₁) (rest := rest) hn hr
  rw [← hbuf, if_neg htail] at hpass
  exact exec_scan_of_pass hpass

theorem join_eq_ofNat (lo hi : Byte) : (hi ++ lo : U16) = BitVec.ofNat 16 (leNat lo hi) := by
  rw [← toNat_join, BitVec.ofNat_toNat, BitVec.setWidth_eq]

/-- The scan's comparison, in terms of the two bytes of the checksum field (R122). -/
theorem crc16_eq_u16le_iff {clear : List Byte} {n : Nat} {c₀ c₁ : Byte} (h₀ : clear[n]? = some c₀)
    (h₁ : clear[n + 1]? = some c₁) :
    crc16 (clear.take n) = u16le clear n ↔ (crc16 (clear.take n)).toNat = leNat c₀ c₁ := by
  rw [← u16le_toNat h₀ h₁, BitVec.toNat_inj]

/-- Settles O31: the tail is good, so the frame goes, and the three clauses are the three branches of step 9. A region
of four bytes or more belongs to a body of two or more. -/
theorem scanRemovesAWholeFrameAndChecksIt : Obligations.ScanRemovesAWholeFrameAndChecksIt := by
  intro s lo hi region rest clear n hbuf hn hr hclear
  have hpass := scanPass_whole s.cfg.key (t0 := 0xDC) (t1 := 0xBA) (rest := rest) hn hr
  rw [← hbuf, if_pos ⟨rfl, rfl⟩, ← hclear] at hpass
  have hlen : clear.length = n + 2 := by rw [hclear, obf_length, hr]
  refine ⟨fun hshort => ?_, fun c₀ c₁ h₀ h₁ hbad => ?_, fun c₀ c₁ b₀ b₁ b₂ b₃ tail h₀ h₁ hgood hhead => ?_⟩
  · rw [if_pos hshort] at hpass
    exact exec_scan_of_pass hpass
  · rw [if_neg (mt (crc16_eq_u16le_iff h₀ h₁).1 hbad)] at hpass
    split at hpass
    · exact exec_scan_of_pass hpass
    · exact exec_scan_of_pass hpass
  · have hmin : ¬ leNat lo hi < 2 := by
      rw [hhead] at hlen
      simp only [List.length_cons] at hlen
      omega
    rw [if_neg hmin, if_pos ((crc16_eq_u16le_iff h₀ h₁).2 hgood), hhead, parseRegion_eq, join_eq_ofNat] at hpass
    exact exec_scan_of_pass hpass

/-! ### The buffers on which `SCAN` waits -/

/-- The buffer begins with AB CD and announces a body of at most 1024 bytes that is not all there (R120). -/
def IncompleteFrame (buf : List Byte) : Prop :=
  ∃ lo hi r, buf = [0xAB, 0xCD, lo, hi] ++ r ∧ leNat lo hi ≤ 1024 ∧ buf.length < leNat lo hi + 8

/-- The two shapes R129 lists of a buffer that `SCAN` no longer changes. -/
def Settled (buf : List Byte) : Prop := buf.length < 8 ∨ IncompleteFrame buf

/-- On a settled buffer `SCAN` waits: for 8 bytes, or for the frame. -/
theorem scanPass_of_settled (key : Vector Byte 16) {buf : List Byte} (h : Settled buf) :
    ∃ outcome, scanPass key buf = ⟨outcome, buf, none⟩ := by
  rcases Nat.lt_or_ge buf.length 8 with hlen | hlen
  · exact ⟨_, scanPass_short key hlen⟩
  rcases h with hshort | ⟨lo, hi, r, rfl, hn, hincomplete⟩
  · omega
  · simp only [List.length_append, List.length_cons, List.length_nil] at hlen hincomplete
    refine ⟨.waitFrame, ?_⟩
    calc scanPass key ([0xAB, 0xCD, lo, hi] ++ r)
        = scanFrame key (0xAB :: 0xCD :: lo :: hi :: r) := scanPass_front key (lo :: hi :: r) (by simp; omega)
      _ = ⟨.waitFrame, [0xAB, 0xCD, lo, hi] ++ r, none⟩ := scanFrame_waitFrame key hn (by omega)

theorem exec_scan_of_settled {s : State} (h : Settled s.rxbuf) : exec .scan s = .next (s.deliver (.scanned none)) := by
  obtain ⟨outcome, hpass⟩ := scanPass_of_settled s.cfg.key h
  exact exec_scan_of_pass hpass

/-- Settles O29: an incomplete frame is a settled buffer. -/
theorem scanWaitsForTheWholeFrame : Obligations.ScanWaitsForTheWholeFrame := fun _ lo hi r hbuf hn hlen =>
  exec_scan_of_settled (.inr ⟨lo, hi, r, hbuf, hn, hlen⟩)

/-- Behind a marker and a length field the scan waits for the frame, or it removes something (R119 to R122). -/
theorem scanFrame_waits_or_removes (key : Vector Byte 16) (a b lo hi : Byte) (r : List Byte) :
    (leNat lo hi ≤ 1024 ∧ r.length + 4 < leNat lo hi + 8 ∧
      scanFrame key (a :: b :: lo :: hi :: r) = ⟨.waitFrame, a :: b :: lo :: hi :: r, none⟩) ∨
    (¬ ((scanFrame key (a :: b :: lo :: hi :: r)).outcome = .waitLen ∨
        (scanFrame key (a :: b :: lo :: hi :: r)).outcome = .waitFrame) ∧
      (scanFrame key (a :: b :: lo :: hi :: r)).rest.length < r.length + 4) := by
  rcases Nat.lt_or_ge 1024 (leNat lo hi) with hbig | hn
  · exact .inr (by simp [scanFrame_oversize key r hbig])
  rcases frame_split lo hi r with hshort | ⟨region, t0, t1, rest, rfl, hr⟩
  · exact .inl ⟨hn, hshort, scanFrame_waitFrame key hn hshort⟩
  refine .inr ?_
  rw [scanFrame_whole key hn hr, scanRegion_eq key hr]
  by_cases htail : t0 = 0xDC ∧ t1 = 0xBA
  · rw [if_pos htail]
    split
    · simp; omega
    · split <;> simp <;> omega
  · rw [if_neg htail]
    simp

/-- Behind a marker, with 8 bytes or more, only the wait for a frame leaves everything (R120). -/
theorem incompleteFrame_of_rest_eq {key : Vector Byte 16} {r : List Byte} (hlen : 6 ≤ r.length)
    (h : (scanFrame key (0xAB :: 0xCD :: r)).rest = 0xAB :: 0xCD :: r) : IncompleteFrame (0xAB :: 0xCD :: r) := by
  match r with
  | [] | [_] => simp at hlen
  | lo :: hi :: r =>
    rcases scanFrame_waits_or_removes key 0xAB 0xCD lo hi r with ⟨hn, hshort, -⟩ | ⟨-, hlt⟩
    · exact ⟨lo, hi, r, rfl, hn, hshort⟩
    · rw [h] at hlt
      exact absurd hlt (Nat.lt_irrefl _)

/-- A pass that leaves the whole buffer found it settled (R129): a marker is in front, for nothing was dropped
before it. -/
theorem settled_of_rest_eq {key : Vector Byte 16} {buf : List Byte} (h : (scanPass key buf).rest = buf) :
    Settled buf := by
  rcases Nat.lt_or_ge buf.length 8 with hlen | hlen
  · exact .inl hlen
  have hs := findMarker_spec buf
  split at hs
  · rw [scanPass_noMarker key hlen hs] at h
    split at h <;> simp [← h] at hlen
  · rename_i k _
    rw [scanPass_marker key hlen hs] at h
    have hk : k = 0 := by
      have hle := (scanFrame_rest_suffix key (buf.drop k)).length_le
      rw [h, List.length_drop] at hle
      omega
    subst hk
    obtain ⟨hmarker, -⟩ := hs
    have hbuf : buf = 0xAB :: 0xCD :: buf.drop 2 := hmarker.drop_eq
    rw [List.drop_zero, hbuf] at h
    rw [hbuf]
    exact .inr (incompleteFrame_of_rest_eq (by rw [List.length_drop]; omega) h)

/-- On every other buffer a pass removes something. -/
theorem scanPass_shortens (key : Vector Byte 16) {buf : List Byte} (h : ¬ Settled buf) :
    (scanPass key buf).rest.length < buf.length := by
  have hsuffix := scanPass_rest_suffix key buf
  exact Nat.lt_of_le_of_ne hsuffix.length_le fun he => h (settled_of_rest_eq (hsuffix.eq_of_length he))

/-- A settled buffer is shorter than the largest frame (R111). -/
theorem Settled.length_lt {buf : List Byte} (h : Settled buf) : buf.length < 1032 := by
  rcases h with hshort | ⟨lo, hi, r, -, hn, hlen⟩ <;> omega

/-- Settles O24: a buffer of that length is not settled. -/
theorem fullBufferIsAlwaysRelieved : Obligations.FullBufferIsAlwaysRelieved := fun s hlen =>
  ⟨s.afterScan, exec_scan s, scanPass_shortens s.cfg.key fun h => absurd h.length_lt (by omega)⟩

/-- Waiting behind a marker, for the length field or for the frame, removes nothing, and the bytes are settled (R117,
R120). -/
theorem scanFrame_waiting {key : Vector Byte 16} {r : List Byte}
    (h : (scanFrame key (0xAB :: 0xCD :: r)).outcome = .waitLen ∨
      (scanFrame key (0xAB :: 0xCD :: r)).outcome = .waitFrame) :
    (scanFrame key (0xAB :: 0xCD :: r)).rest = 0xAB :: 0xCD :: r ∧ Settled (0xAB :: 0xCD :: r) := by
  match r with
  | [] | [_] =>
    rw [scanFrame_waitLen key (by simp)]
    exact ⟨rfl, .inl (by simp)⟩
  | lo :: hi :: r =>
    rcases scanFrame_waits_or_removes key 0xAB 0xCD lo hi r with ⟨hn, hshort, hwait⟩ | ⟨hout, -⟩
    · rw [hwait]
      exact ⟨rfl, .inr ⟨lo, hi, r, rfl, hn, hshort⟩⟩
    · exact absurd h hout

/-- A pass that waits behind a marker leaves a settled buffer with the marker in front (R118). -/
theorem scanPass_waiting {key : Vector Byte 16} {buf : List Byte}
    (h : (scanPass key buf).outcome = .waitLen ∨ (scanPass key buf).outcome = .waitFrame) :
    MarkerAt (scanPass key buf).rest 0 ∧ Settled (scanPass key buf).rest := by
  rcases Nat.lt_or_ge buf.length 8 with hlen | hlen
  · simp [scanPass_short key hlen] at h
  have hs := findMarker_spec buf
  split at hs
  · rw [scanPass_noMarker key hlen hs] at h
    split at h <;> simp at h
  · rw [scanPass_marker key hlen hs] at h ⊢
    obtain ⟨hmarker, -⟩ := hs
    rw [hmarker.drop_eq] at h ⊢
    obtain ⟨hrest, hsettled⟩ := scanFrame_waiting h
    rw [hrest]
    exact ⟨(leftmost_zero _).1, hsettled⟩

/-- Settles O34: what a waiting pass leaves is settled. -/
theorem waitingScanKeepsTheMarkerInFront : Obligations.WaitingScanKeepsTheMarkerInFront := by
  intro s t hscan hwait
  obtain rfl : s.afterScan = t := Host.Outcome.next.inj hscan
  obtain ⟨hmarker, hsettled⟩ := scanPass_waiting hwait
  exact ⟨hmarker, exec_scan_of_settled hsettled⟩

/-- As many scans as there are bytes settle a buffer: each removes a byte at least, or the buffer is settled already and
stays so (R129). -/
theorem run_scans_settles (n : Nat) (s : State) (hp : s.pending = List.replicate n (move .scan))
    (h : s.rxbuf.length ≤ n ∨ Settled s.rxbuf) : ∃ t, core.run n s = .next t ∧ Settled t.rxbuf := by
  induction n generalizing s with
  | zero => exact ⟨s, run_zero s, h.elim (fun hlen => .inl (by omega)) id⟩
  | succ n ih =>
    rw [List.replicate_succ] at hp
    have hrest : (scanPass s.cfg.key s.rxbuf).rest.length ≤ n ∨ Settled (scanPass s.cfg.key s.rxbuf).rest := by
      by_cases hs : Settled s.rxbuf
      · obtain ⟨outcome, hpass⟩ := scanPass_of_settled s.cfg.key hs
        exact .inr (by rwa [hpass])
      · have hlt := scanPass_shortens s.cfg.key hs
        have hlen := h.resolve_right hs
        exact .inl (by omega)
    rw [run_move hp (exec_scan _)]
    exact ih _ rfl hrest

/-- Settles O35: on the buffer the scans reach a further one waits. -/
theorem repeatedScansSettle : Obligations.RepeatedScansSettle := by
  intro s hp
  obtain ⟨t, hrun, hsettled⟩ := run_scans_settles _ s hp (.inl (Nat.le_refl _))
  exact ⟨t, hrun, exec_scan_of_settled hsettled, hsettled⟩

/-! ### Whole frames -/

/-- Settles O37: an encoded frame passes every test of the scan. -/
theorem scanReturnsTheEncodedMessage : Obligations.ScanReturnsTheEncodedMessage := by
  intro s ty payload rest h hbuf
  have hpass := scanPass_encodeFrame s.cfg.key ty h rest
  rw [← hbuf] at hpass
  exact exec_scan_of_pass hpass

/-- Settles O41, by induction on the messages: each `SCAN` takes the frame in front. -/
theorem bufferedFramesComeOutInOrder : Obligations.BufferedFramesComeOutInOrder := by
  intro s messages rest hlen hbuf hp
  induction messages generalizing s with
  | nil =>
    have hbuf : s.rxbuf = rest := hbuf
    have hp : s.pending = [] := hp
    rw [List.length_nil, run_zero, List.map_nil, List.append_nil, ← hbuf, ← hp]
  | cons m messages ih =>
    rw [List.forall_mem_cons] at hlen
    obtain ⟨hm, hlen⟩ := hlen
    rw [List.flatMap_cons, List.append_assoc] at hbuf
    rw [List.length_cons, List.replicate_succ] at hp
    rw [List.length_cons, run_move hp (scanReturnsTheEncodedMessage (s.withPending _) _ _ _ hm hbuf), ih _ hlen rfl rfl]
    simp

/-- Bytes without the marker pair before a frame go with it (R116, R128). -/
theorem scanPass_garbage_encodeFrame (key : Vector Byte 16) {g : List Byte} (hg : NoMarker g) (ty : U16)
    {payload : List Byte} (h : payload.length ≤ 1020) (rest : List Byte) :
    scanPass key (g ++ encodeFrame key ty payload ++ rest) = ⟨.message, rest, some ⟨ty, payload⟩⟩ := by
  have hpass := scanPass_encodeFrame key ty h rest
  obtain ⟨lo, hi, -, hparts⟩ := encodeFrame_parts key ty payload h rest
  generalize lo :: hi :: _ = r at hparts
  have hlen : 8 ≤ r.length := by
    have hframe := congrArg List.length hparts
    simp only [List.length_append, encodeFrame_length, List.length_cons] at hframe
    omega
  have hwhole : g ++ encodeFrame key ty payload ++ rest = g ++ [0xAB, 0xCD] ++ r := by
    rw [List.append_assoc, hparts]
    simp
  rw [hparts, scanPass_front key r (by omega)] at hpass
  rw [hwhole, scanPass_garbage key r hg.snoc_AB (by simp; omega), hpass]

/-- Settles O40: the scan passes over the garbage and takes the frame. -/
theorem garbageBeforeAFrameIsTolerated : Obligations.GarbageBeforeAFrameIsTolerated := by
  intro s ty payload garbage hempty h hg hfits
  have hpass := scanPass_garbage_encodeFrame s.cfg.key hg ty h []
  rw [List.append_nil] at hpass
  exact ⟨_, exec_poll_of_accepts hfits, by simp [hempty, hpass], by simp [hempty, hpass]⟩

/-- Outcome OVERSIZE with the marker in front (R119). -/
theorem scanPass_oversize (key : Vector Byte 16) {lo hi : Byte} {r : List Byte} (hr : 4 ≤ r.length)
    (h : 1024 < leNat lo hi) : scanPass key ([0xAB, 0xCD, lo, hi] ++ r) = ⟨.oversize, [lo, hi] ++ r, none⟩ :=
  (scanPass_front key (lo :: hi :: r) (by simp; omega)).trans (scanFrame_oversize key r h)

theorem exec_scan_oversize (s : State) (lo hi : Byte) (r : List Byte) (hbuf : s.rxbuf = [0xAB, 0xCD, lo, hi] ++ r)
    (hr : 4 ≤ r.length) (hbig : 1024 < leNat lo hi) :
    exec .scan s = .next { s with rxbuf := [lo, hi] ++ r, results := s.results ++ [.scanned none] } :=
  exec_scan_of_pass (hbuf ▸ scanPass_oversize s.cfg.key hr hbig)

/-- Settles O28: without its marker the oversize frame is garbage before the next one. -/
theorem scanDropsOnlyTheMarkerOfAnOversizeFrame : Obligations.ScanDropsOnlyTheMarkerOfAnOversizeFrame := by
  refine ⟨exec_scan_oversize, fun s lo hi x rest ty payload hbig hno h hbuf => ?_⟩
  have hr : 4 ≤ (x ++ encodeFrame s.cfg.key ty payload ++ rest).length := by
    simp only [List.length_append, encodeFrame_length]
    omega
  have hpass := scanPass_garbage_encodeFrame s.cfg.key hno ty h rest
  refine ⟨_, exec_scan_oversize s lo hi _ (by simpa using hbuf) hr hbig, rfl, ?_⟩
  rw [exec_scan_of_pass (rest := rest) (found := some ⟨ty, payload⟩) (by simpa using hpass)]
  simp

/-! ### A frame in pieces -/

/-- A frame of which something is still to come is a settled buffer (R127). -/
theorem settled_of_encodeFrame_prefix {key : Vector Byte 16} {ty : U16} {payload buf more : List Byte}
    (h : payload.length ≤ 1020) (hframe : buf ++ more = encodeFrame key ty payload) (hmore : more ≠ []) :
    Settled buf := by
  rcases Nat.lt_or_ge buf.length 8 with hlen | hlen
  · exact .inl hlen
  obtain ⟨lo, hi, hn, hparts⟩ := encodeFrame_parts key ty payload h []
  have hsize := congrArg List.length hframe
  rw [List.length_append, encodeFrame, frameOf_length, ← hn] at hsize
  have hbody := clearBody_length ty payload
  have hpos := List.length_pos_iff.2 hmore
  have hprefix : [0xAB, 0xCD, lo, hi] <+: buf := by
    rw [List.append_nil] at hparts
    exact List.prefix_of_prefix_length_le ⟨_, hparts.symm⟩ ⟨more, hframe⟩ (by simp; omega)
  obtain ⟨r, rfl⟩ := hprefix
  exact .inr ⟨lo, hi, r, rfl, by omega, by omega⟩

/-- The rest of a frame in non-empty pieces, the buffer holding what came before: every `POLL` but the last finds the
buffer settled, and the last one finds the frame (R127). -/
theorem run_polls_of_encodeFrame {ty : U16} {payload : List Byte} (h : payload.length ≤ 1020)
    (chunks : List (List Byte)) (s : State) (hwf : s.wf = true) (hne : chunks ≠ [])
    (hframe : s.rxbuf ++ chunks.flatten = encodeFrame s.cfg.key ty payload) (hpieces : ∀ c ∈ chunks, c ≠ [])
    (hp : s.pending = chunks.map fun c => move (.poll c)) :
    ∃ t : State, core.run chunks.length s = .next t ∧ t.rxbuf = [] ∧
      t.results = s.results ++
        (List.replicate (chunks.length - 1) (.scanned none) ++ [.scanned (some ⟨ty, payload⟩)]) := by
  induction chunks generalizing s with
  | nil => exact absurd rfl hne
  | cons c chunks ih =>
    rw [List.map_cons] at hp
    rw [List.flatten_cons, ← List.append_assoc] at hframe
    have hfits : (s.withPending (chunks.map fun c => move (.poll c))).accepts c = true := by
      refine accepts_of_le (State.wf_withPending hwf _) ?_
      have hsize := congrArg List.length hframe
      simp only [List.length_append, encodeFrame_length] at hsize
      simp only [State.withPending_rxbuf]
      omega
    have hpoll := exec_poll_of_accepts hfits
    rw [List.length_cons, run_move hp hpoll]
    match chunks with
    | [] =>
      have hpass := scanPass_encodeFrame s.cfg.key ty h []
      rw [← hframe, List.flatten_nil, List.append_nil, List.append_nil] at hpass
      exact ⟨_, run_zero _, by simp [hpass], by simp [hpass]⟩
    | c' :: chunks =>
      have hmore : (c' :: chunks).flatten ≠ [] := by simp [hpieces c' (by simp)]
      obtain ⟨outcome, hpass⟩ := scanPass_of_settled s.cfg.key (settled_of_encodeFrame_prefix h hframe hmore)
      obtain ⟨t, hrun, hempty, hresults⟩ := ih _ (exec_keeps_wf (State.wf_withPending hwf _) hpoll) (by simp)
        (by simpa [hpass] using hframe) (fun d hd => hpieces d (by simp_all)) rfl
      refine ⟨t, hrun, hempty, ?_⟩
      simpa [hpass, List.replicate_succ] using hresults

/-- Settles O39: from the empty buffer the pieces make up the whole frame, so there is one at least. -/
theorem chunkedDeliveryGivesTheSameMessage : Obligations.ChunkedDeliveryGivesTheSameMessage := by
  intro s ty payload chunks hwf hempty h hflat hpieces hp
  have hne : chunks ≠ [] := by
    rintro rfl
    have hsize := congrArg List.length hflat
    rw [encodeFrame_length, List.flatten_nil, List.length_nil] at hsize
    omega
  exact run_polls_of_encodeFrame h chunks s hwf hne (by rw [hempty, List.nil_append, hflat]) hpieces hp

end Sys2Proof.Machine

/-! SUPPORT. Proof of the statement about the outcome table (60_exceptions.md): what each of the ten outcomes of R141 removes
and returns, branch by branch of the scanner. -/

namespace Sys2Proof.Machine

/-- What R141 says of an outcome behind the marker, numbers 4 to 10, for a buffer that begins there and announces a body of
`n` bytes. The buffer before the garbage was dropped had `rxlen` bytes. -/
structure ScanPass.TabledBehindMarker (pass : ScanPass) (rxlen n : Nat) (buf : List Byte) : Prop where
  message_iff : pass.outcome = .message ↔ pass.found ≠ none
  outcome_notMem : pass.outcome ∉ [ScanOutcome.waitMin, .noMarkerKeep, .noMarkerClear]
  rest_eq : pass.rest = buf.drop (pass.outcome.discards rxlen n)

/-- Outcomes 8 to 10: step 9 removes the frame before it tests the region and the checksum (R122, R123). -/
theorem scanRegion_tabled (key : Vector Byte 16) (rxlen n : Nat) (buf : List Byte) :
    (scanRegion key buf n).TabledBehindMarker rxlen n buf := by
  unfold scanRegion
  dsimp only
  split
  · exact ⟨by simp, by simp, rfl⟩
  · split
    · exact ⟨by simp, by simp, rfl⟩
    · exact ⟨by simp, by simp, rfl⟩

/-- Outcomes 4 to 10, in the order of the tests of steps 5 to 8 (R117 to R121, R145). -/
theorem scanFrame_tabled (key : Vector Byte 16) (rxlen : Nat) (buf : List Byte) :
    (scanFrame key buf).TabledBehindMarker rxlen (u16le buf 2).toNat buf := by
  unfold scanFrame
  dsimp only
  split
  case isTrue => exact ⟨by simp, by simp, rfl⟩
  split
  case isTrue => exact ⟨by simp, by simp, rfl⟩
  split
  case isTrue => exact ⟨by simp, by simp, rfl⟩
  split
  case isTrue => exact scanRegion_tabled key rxlen _ buf
  case isFalse => exact ⟨by simp, by simp, rfl⟩

/-- Outcomes 2 and 3: what is left is an end piece of one byte, or of none (R114). -/
theorem scanPass_noMarker_tabled (key : Vector Byte 16) {buf : List Byte} (hlen : 8 ≤ buf.length) (h : NoMarker buf) :
    (scanPass key buf).found = none ∧
      (scanPass key buf).outcome ∈ [ScanOutcome.noMarkerKeep, .noMarkerClear] ∧
      (scanPass key buf).rest = buf.drop ((scanPass key buf).outcome.discards buf.length 0) := by
  have hrest := List.suffix_iff_eq_drop.1 (scanPass_rest_suffix key buf)
  rw [scanPass_noMarker key hlen h] at hrest ⊢
  by_cases hlast : buf.getLast? = some 0xAB
  · rw [if_pos hlast] at hrest ⊢
    exact ⟨rfl, by simp, hrest⟩
  · rw [if_neg hlast] at hrest ⊢
    exact ⟨rfl, by simp, hrest⟩

/-- Settles O32: outcome 1 on a short buffer, 2 and 3 where there is no marker, 4 to 10 behind the leftmost one. -/
theorem scanOutcomesDiscardAsTabled : Obligations.ScanOutcomesDiscardAsTabled := by
  intro key buf
  rcases Nat.lt_or_ge buf.length 8 with hlen | hlen
  · rw [scanPass_short key hlen]
    exact ⟨by simp, fun _ => rfl, fun h => absurd List.mem_cons_self h⟩
  have hs := findMarker_spec buf
  split at hs
  · obtain ⟨hfound, hout, hrest⟩ := scanPass_noMarker_tabled key hlen hs
    refine ⟨?_, fun _ => hrest, fun h => absurd (List.mem_cons_of_mem _ hout) h⟩
    rw [hfound]
    exact ⟨fun h => absurd hout (by rw [h]; decide), fun h => absurd rfl h⟩
  · rename_i k _
    rw [scanPass_marker key hlen hs]
    obtain ⟨hmessage, hout, hrest⟩ := scanFrame_tabled key buf.length (buf.drop k)
    rw [List.drop_drop] at hrest
    refine ⟨hmessage, fun h => absurd h hout, fun _ => ⟨k, _, hs, fun lo hi hlo hhi => ?_, hrest⟩⟩
    exact u16le_toNat (by rwa [List.getElem?_drop]) (by rwa [List.getElem?_drop])

end Sys2Proof.Machine

/-! SUPPORT. Proofs of the statements about hazards (70_reset_and_hazards.md): a frame whose clear region is all zeros is
accepted (R165), and a false marker holds back what arrives behind it (R162). -/

namespace Sys2Proof.Machine

/-! ### The zero region -/

/-- A field of zero bytes reads as zero. -/
theorem u16le_zeros {m i : Nat} (h : i + 1 < m) : u16le (List.replicate m 0x00) i = 0 :=
  u16le_eq (List.getElem?_replicate_of_lt (by omega)) (List.getElem?_replicate_of_lt h)

/-- Zeros parse to type 0 with a declared length of 0 (R102). -/
theorem parseRegion_zeros {n : Nat} (h : 2 ≤ n) : parseRegion (List.replicate (n + 2) 0x00) n = ⟨0, []⟩ := by
  have htype : u16le (List.replicate (n + 2) 0x00) 0 = 0 := u16le_zeros (by omega)
  have hdeclared : u16le (List.replicate (n + 2) 0x00) 2 = 0 := u16le_zeros (by omega)
  simp only [parseRegion, htype, hdeclared]
  simp [slice]

/-- The checksum of a zero body is zero, which is what a zero checksum field holds, so step 9 takes the frame (R165). -/
theorem scanPass_zeroRegion (key : Vector Byte 16) {lo hi : Byte} (hmin : 2 ≤ leNat lo hi) (hmax : leNat lo hi ≤ 1024)
    (rest : List Byte) :
    scanPass key ([0xAB, 0xCD, lo, hi] ++ obf key (List.replicate (leNat lo hi + 2) 0x00) ++ [0xDC, 0xBA] ++ rest) =
      ⟨.message, rest, some ⟨0, []⟩⟩ := by
  have hregion : (obf key (List.replicate (leNat lo hi + 2) 0x00)).length = leNat lo hi + 2 := by simp
  have hbody : (List.replicate (leNat lo hi + 2) (0x00 : Byte)).take (leNat lo hi) =
      List.replicate (leNat lo hi) 0x00 := by simp
  have hcrc : crc16 (List.replicate (leNat lo hi) 0x00) =
      u16le (List.replicate (leNat lo hi + 2) 0x00) (leNat lo hi) := by
    rw [crc16_zeros, u16le_zeros (by omega)]
  rw [scanPass_whole key hmax hregion, if_pos ⟨rfl, rfl⟩, if_neg (by omega), obf_obf, hbody, if_pos hcrc,
    parseRegion_zeros hmin]

/-- Settles O42: the two length bytes stand for `n`, and the zero region passes every test of the scan. -/
theorem zeroRegionIsAccepted : Obligations.ZeroRegionIsAccepted := by
  intro s n rest hmin hmax hbuf
  have hn : leNat (BitVec.ofNat 8 n) (BitVec.ofNat 8 (n / 256)) = n := leNat_ofNat (by omega)
  have hpass := scanPass_zeroRegion s.cfg.key (hn.symm ▸ hmin) (hn.symm ▸ hmax) rest
  rw [hn, ← hbuf] at hpass
  exact exec_scan_of_pass hpass

/-! ### The false marker -/

/-- A `POLL` whose bytes leave the buffer settled appends them and returns none. -/
theorem exec_poll_of_settled {s : State} {chunk : List Byte} (hfits : s.accepts chunk = true)
    (h : Settled (s.rxbuf ++ chunk)) : exec (.poll chunk) s = .next ((s.push chunk).deliver (.scanned none)) :=
  calc exec (.poll chunk) s
      = exec .scan (s.push chunk) := exec_poll_of_accepts hfits
    _ = .next ((s.push chunk).deliver (.scanned none)) := exec_scan_of_settled h

/-- Settles O43: behind the marker the bytes that arrive only make the incomplete frame longer. -/
theorem falseMarkerHoldsBackWhatArrives : Obligations.FalseMarkerHoldsBackWhatArrives := by
  intro s lo hi r chunk hbuf hn hlen hfits
  have hincomplete : IncompleteFrame (s.rxbuf ++ chunk) :=
    ⟨lo, hi, r ++ chunk, by rw [hbuf, List.append_assoc], hn, by rw [List.length_append]; exact hlen⟩
  exact ⟨_, exec_poll_of_settled hfits (.inr hincomplete), rfl, rfl⟩

end Sys2Proof.Machine

/-! SUPPORT. Proofs of the statements about transactions, stepping, reset and refusals (30_encoding.md,
60_exceptions.md, 70_reset_and_hazards.md): the round trip of the decoder, one equation per kind of step, and what each
operation refuses. -/

namespace Sys2Proof.Machine

/-! ### Decoding -/

/-- The round trip of each operation, for every instruction (R60, R61). -/
theorem roundTrip (i : Instr) : Laws.RoundTrip.Statement i :=
  match i with
  | .crc16 data => Laws.RoundTrip.crc16 data
  | .crcchk data expected => Laws.RoundTrip.crcchk data expected
  | .obf data => Laws.RoundTrip.obf data
  | .deobf data => Laws.RoundTrip.deobf data
  | .encode ty payload => Laws.RoundTrip.encode ty payload
  | .decodeBody masked => Laws.RoundTrip.decodeBody masked
  | .rxPush chunk => Laws.RoundTrip.rxPush chunk
  | .scan => Laws.RoundTrip.scan
  | .poll chunk => Laws.RoundTrip.poll chunk

@[simp] theorem decode_encode (i : Instr) : decode (encode i) = .ok i := (roundTrip i).1

/-- Settles O2: each operation's transaction decodes to it, and it is the only one that does. -/
theorem decodeAndEncodeAgree : Obligations.DecodeAndEncodeAgree :=
  ⟨decode_encode, fun t i h => ((roundTrip i).2 t h).symm⟩

/-- A table word decodes to the instruction whose transaction it stands for. -/
theorem decodeTableWord_of_encode {nbits w : Nat} {i : Instr} (h : tableTransaction nbits w = encode i) :
    decodeTableWord nbits w = some i := by
  simp [decodeTableWord, h]

/-- Settles O1: each table word stands for its operation with operands of zeros, and the two transactions with real
operands are those of their instructions. -/
theorem commandWordsDecodeAsTabled : Obligations.CommandWordsDecodeAsTabled :=
  ⟨decodeTableWord_of_encode (by decide), decodeTableWord_of_encode (by decide), decodeTableWord_of_encode (by decide),
    decodeTableWord_of_encode (by decide), decodeTableWord_of_encode (by decide), decodeTableWord_of_encode (by decide),
    decodeTableWord_of_encode (by decide), decodeTableWord_of_encode (by decide), decodeTableWord_of_encode (by decide),
    decode_encode (.encode 0x1234 [0xAA]), decode_encode (.crcchk [0x34, 0x12] 0xCB1B)⟩

/-- The codes the table leaves out are 0x00 and those above 0x09 (R60). -/
theorem decodeCode_eq_none_iff (code : Byte) : decodeCode code = none ↔ code.toNat = 0 ∨ 9 < code.toNat := by
  revert code; decide +kernel

theorem decode_of_unassigned {t : Transaction} (h : decodeCode t.code = none) :
    decode t = .error (.unassignedCode t.code) := by
  simp only [decode, h]

/-- The operands of zeros fit their operation (log 3). -/
theorem decodeOperands_zeroOperands (op : Opcode) : ∃ i, decodeOperands op (zeroOperands op) = some i := by
  cases op <;> exact ⟨_, rfl⟩

/-- An assigned code decodes with operands of zeros. -/
theorem decode_zeroOperands {code : Byte} {op : Opcode} (h : decodeCode code = some op) :
    ∃ i, decode ⟨code, zeroOperands op⟩ = .ok i := by
  obtain ⟨i, hi⟩ := decodeOperands_zeroOperands op
  exact ⟨i, Laws.RoundTrip.decode_of h hi⟩

/-! ### Stepping -/

theorem step_of_idle {s : State} (h : s.pending = []) : step s = .next s := by
  simp only [step, advance, h]

/-- A step makes the host's next move on the state with that move taken from the queue (log 4). -/
theorem step_of_pending {s : State} {m : HostMove} {moves : List HostMove} (h : s.pending = m :: moves) :
    step s = perform m (s.withPending moves) := by
  simp only [step, advance, h]

theorem perform_issue_of_ok {t : Transaction} {i : Instr} (h : decode t = .ok i) (s : State) :
    perform (.issue t) s = exec i s := by
  simp only [perform, issue, h]

theorem perform_issue_of_error {t : Transaction} {e : DecodeError} (h : decode t = .error e) (s : State) :
    perform (.issue t) s = .refused (refusalOf e) := by
  simp only [perform, issue, h]

/-- Settles O3: the move is taken from the queue, and performing it is the decoded instruction. -/
theorem stepRunsTheDecodedInstruction : Obligations.StepRunsTheDecodedInstruction := fun _ _ _ _ hp hd =>
  (step_of_pending hp).trans (perform_issue_of_ok hd _)

/-- Settles O4: the reset is a move like any other, and an empty queue holds none. -/
theorem resetEventAndIdleStep : Obligations.ResetEventAndIdleStep := fun _ =>
  ⟨fun _ hp => step_of_pending hp, step_of_idle⟩

/-- Settles O6: the table has no row for such a code, and a code with a row decodes with operands of zeros. -/
theorem unassignedCodesAreRefused : Obligations.UnassignedCodesAreRefused := by
  refine ⟨fun s t moves hp hcode => ?_, fun code hmin hmax => ?_⟩
  · have hd := decode_of_unassigned ((decodeCode_eq_none_iff t.code).2 hcode)
    exact (step_of_pending hp).trans (perform_issue_of_error hd _)
  · have hassigned : decodeCode code ≠ none := fun h => by
      have := (decodeCode_eq_none_iff code).1 h
      omega
    obtain ⟨op, hop⟩ := Option.ne_none_iff_exists'.1 hassigned
    exact ⟨zeroOperands op, decode_zeroOperands hop⟩

/-! ### The state after reset -/

/-- A block built with parameters R3 allows meets the invariant after reset. -/
theorem State.wf_launch {cfg : Config} (h : cfg.wf = true) : (State.launch cfg).wf = true :=
  (state_wf_iff _).2 ⟨h, Memory.wf_nil _, counterInRange_zero _⟩

/-- Settles O5: the defaults of R3 are parameters it allows. -/
theorem resetStateIsEmptyAndWellFormed : Obligations.ResetStateIsEmptyAndWellFormed :=
  ⟨rfl, rfl, rfl, rfl, State.wf_launch rfl⟩

/-! ### Refusals -/

/-- An operation with a range answers a refusal exactly outside it, and then the one it names. -/
theorem ite_next_refused_iff {inRange : Prop} [Decidable inRange] {t : State} {named r : Refusal} :
    (if inRange then .next t else .refused named : Host.Outcome State Fault Refusal) = .refused r ↔
      ¬ inRange ∧ r = named := by
  split <;> simp [*, eq_comm]

/-- `ENCODE` is refused on a payload over 1020 bytes and on no other (R92). -/
theorem exec_encode_refused_iff {ty : U16} {payload : List Byte} {s : State} {r : Refusal} :
    exec (.encode ty payload) s = .refused r ↔ 1020 < payload.length ∧ r = .payloadTooLong := by
  rw [exec, execEncode, ite_next_refused_iff, payloadInRange_iff, Nat.not_le]

/-- `DECODE_BODY` is refused on fewer than 4 bytes and on no other operand (R103). -/
theorem exec_decodeBody_refused_iff {masked : List Byte} {s : State} {r : Refusal} :
    exec (.decodeBody masked) s = .refused r ↔ masked.length < 4 ∧ r = .bodyTooShort := by
  rw [exec, execDecodeBody, ite_next_refused_iff, bodyInRange_iff, Nat.not_le]

/-- A push does not fit exactly when it goes beyond a finite capacity (R111). -/
theorem not_accepts_iff (s : State) (chunk : List Byte) :
    ¬ s.accepts chunk = true ↔ ∃ cap, s.cfg.rxbufCap = some cap ∧ cap < s.rxbuf.length + chunk.length := by
  simp [accepts_iff]

/-- `RX_PUSH` is refused beyond a finite capacity and nowhere else (R111). -/
theorem exec_rxPush_refused_iff {chunk : List Byte} {s : State} {r : Refusal} :
    exec (.rxPush chunk) s = .refused r ↔
      (∃ cap, s.cfg.rxbufCap = some cap ∧ cap < s.rxbuf.length + chunk.length) ∧ r = .bufferFull := by
  rw [exec_rxPush, ite_next_refused_iff, not_accepts_iff]

/-- A refused operation is one of the three that have a range. -/
theorem refusable_of_exec_refused {i : Instr} {s : State} {r : Refusal} (h : exec i s = .refused r) :
    (∃ ty payload, i = .encode ty payload) ∨ (∃ masked, i = .decodeBody masked) ∨ ∃ chunk, i = .rxPush chunk := by
  cases i with
  | encode ty payload => exact .inl ⟨ty, payload, rfl⟩
  | decodeBody masked => exact .inr (.inl ⟨masked, rfl⟩)
  | rxPush chunk => exact .inr (.inr ⟨chunk, rfl⟩)
  | _ => cases h

/-- Settles O7: only three operations can be refused, and each outside its range alone. -/
theorem operationsRefusedExactlyAsListed : Obligations.OperationsRefusedExactlyAsListed := by
  intro i s r
  constructor
  · intro h
    rcases refusable_of_exec_refused h with ⟨ty, payload, rfl⟩ | ⟨masked, rfl⟩ | ⟨chunk, rfl⟩
    · exact .inl ⟨ty, payload, rfl, exec_encode_refused_iff.1 h⟩
    · exact .inr (.inl ⟨masked, rfl, exec_decodeBody_refused_iff.1 h⟩)
    · obtain ⟨⟨cap, hcap, hlen⟩, hr⟩ := exec_rxPush_refused_iff.1 h
      exact .inr (.inr ⟨chunk, cap, rfl, hcap, hlen, hr⟩)
  · rintro (⟨ty, payload, rfl, h⟩ | ⟨masked, rfl, h⟩ | ⟨chunk, cap, rfl, hcap, hlen, hr⟩)
    · exact exec_encode_refused_iff.2 h
    · exact exec_decodeBody_refused_iff.2 h
    · exact exec_rxPush_refused_iff.2 ⟨⟨cap, hcap, hlen⟩, hr⟩

end Sys2Proof.Machine
